-- ==== Sys2Proof/Word.lean ====
section
/-! DEFINITION. The three value types of the engine (00_scope R8): the byte `u8`, the word `u32`, the
bit counter's `u64`. Their arithmetic is that of `BitVec`: unsigned and wrapping (00_scope R9). -/

namespace Sys2Proof

/-- `u8` (00_scope R8). -/
abbrev Byte := BitVec 8

/-- `u32` (00_scope R8). -/
abbrev Word := BitVec 32

/-- `u64` (00_scope R8). -/
abbrev DWord := BitVec 64

end Sys2Proof
end

