-- ==== Sys2Proof/Syntax.lean ====
section
/-! DEFINITION. The syntax of commands: one constructor of `Instr` per row of spec/opcode_table.json, with the operands
of 30_encoding R74 to R80. INIT's fields take every value of the encoding (30_encoding R74); the fields of the diagnostic
commands are already the legal ones, since the decoder refuses every other value (30_encoding R86). -/

namespace Sys2Proof

/-- The pass count n of a computation: 3, 4 or 5 (10_state R23). -/
inductive PassCount
  | three | four | five
deriving DecidableEq, Repr

/-- A pass index p, which is also the index k of a round function F_k: 1 to 5 (41_round_functions R120, R127). -/
inductive PassIndex
  | one | two | three | four | five
deriving DecidableEq, Repr

/-- The output width w in bits (10_state R24). -/
inductive Width
  | w128 | w160 | w192 | w224 | w256
deriving DecidableEq, Repr

/-- n as a number. -/
def PassCount.toNat : PassCount → Nat
  | .three => 3 | .four => 4 | .five => 5

/-- p as a number. -/
def PassIndex.toNat : PassIndex → Nat
  | .one => 1 | .two => 2 | .three => 3 | .four => 4 | .five => 5

/-- w as a number of bits. -/
def Width.bits : Width → Nat
  | .w128 => 128 | .w160 => 160 | .w192 => 192 | .w224 => 224 | .w256 => 256

/-- The commands of 30_encoding R73. -/
inductive Instr
  /-- INIT (R74): PASSES and WIDTH, any values. -/
  | init (passes : BitVec 8) (width : BitVec 16)
  /-- ABSORB (R75): LEN. -/
  | absorb (len : BitVec 24)
  /-- FINALIZE (R76). -/
  | finalize
  /-- DIAG_F (R77): K. -/
  | diagF (k : PassIndex)
  /-- DIAG_STEP (R78): NPASS, PASS, STEP. -/
  | diagStep (n : PassCount) (p : PassIndex) (i : Fin 32)
  /-- DIAG_COMPRESS (R79): NPASS. -/
  | diagCompress (n : PassCount)
  /-- DIAG_FOLD (R80): WIDTH. -/
  | diagFold (w : Width)
deriving DecidableEq, Repr

end Sys2Proof
end

