-- ==== Sys2Proof/WellFormed.lean ====
section
/-! DEFINITION. The one check on a command that its operands' types do not already make: DIAG_STEP's PASS is at most its
NPASS (30_encoding R78: "1..NPASS"). -/

namespace Sys2Proof

/-- PASS is 1..NPASS (30_encoding R78, R84). -/
def passLegal (n : PassCount) (p : PassIndex) : Bool := p.toNat ≤ n.toNat

/-- The command's operands are legal together. INIT is well formed with every value of its fields: an illegal value
is INIT's own rejection (30_encoding R74). -/
def Instr.wellFormed : Instr → Bool
  | .init _ _ => true
  | .absorb _ => true
  | .finalize => true
  | .diagF _ => true
  | .diagStep n p _ => passLegal n p
  | .diagCompress _ => true
  | .diagFold _ => true

end Sys2Proof
end

