-- ==== Sys2Proof/Decode.lean ====
section
/-! DEFINITION. The command decoder of 30_encoding R86, total on all 2^32 command words, rejecting by name; the payload
length a command word requires (30_encoding R81, R90); and, after them, the encoder, written from 30_encoding R74 to R80.
Fields are plain unsigned binary numbers read from their bits (30_encoding R82). -/

namespace Sys2Proof

/-- Why a command word selects no command. All three are ILLEGAL_COMMAND (60_exceptions R263 (a) and (b)). -/
inductive Illegal
  /-- A reserved OP: 0x00, 0x04–0x0F, 0x14–0xFF (30_encoding R83). -/
  | reservedOpcode
  /-- A nonzero reserved bit (30_encoding R84). -/
  | reservedBits
  /-- A diagnostic field outside its legal values (30_encoding R84). -/
  | fieldOutOfRange
deriving DecidableEq, Repr

/-- The pass count a number stands for: legal are 3, 4, 5 (10_state R23). -/
def PassCount.ofNat? (v : Nat) : Option PassCount :=
  if v = 3 then some .three else if v = 4 then some .four else if v = 5 then some .five else none

/-- The pass or function index a number stands for: 1..5 (30_encoding R77, R78). -/
def PassIndex.ofNat? (v : Nat) : Option PassIndex :=
  if v = 1 then some .one else if v = 2 then some .two else if v = 3 then some .three
  else if v = 4 then some .four else if v = 5 then some .five else none

/-- The width a number of bits stands for: legal are 128, 160, 192, 224, 256 (10_state R24). -/
def Width.ofNat? (v : Nat) : Option Width :=
  if v = 128 then some .w128 else if v = 160 then some .w160 else if v = 192 then some .w192
  else if v = 224 then some .w224 else if v = 256 then some .w256 else none

/-- OP, bits [31:24] (30_encoding R72). -/
def opField (cmd : Word) : BitVec 8 := cmd.extractLsb' 24 8

/-- FINALIZE: all of ARG is reserved (30_encoding R76). -/
def decodeFinalize (cmd : Word) : Except Illegal Instr :=
  if cmd.extractLsb' 0 24 = 0#24 then .ok .finalize else .error .reservedBits

/-- DIAG_F: K in [2:0], [23:3] reserved (30_encoding R77). -/
def decodeDiagF (cmd : Word) : Except Illegal Instr :=
  if cmd.extractLsb' 3 21 = 0#21 then
    match PassIndex.ofNat? (cmd.extractLsb' 0 3).toNat with
    | some k => .ok (.diagF k)
    | none => .error .fieldOutOfRange
  else .error .reservedBits

/-- DIAG_STEP: STEP in [12:8], NPASS in [6:4], PASS in [2:0]; [23:13], [7], [3] reserved (30_encoding R78). -/
def decodeDiagStep (cmd : Word) : Except Illegal Instr :=
  if cmd.extractLsb' 13 11 = 0#11 ∧ cmd.extractLsb' 7 1 = 0#1 ∧ cmd.extractLsb' 3 1 = 0#1 then
    match PassCount.ofNat? (cmd.extractLsb' 4 3).toNat, PassIndex.ofNat? (cmd.extractLsb' 0 3).toNat with
    | some n, some p =>
      if passLegal n p then .ok (.diagStep n p (cmd.extractLsb' 8 5).toFin) else .error .fieldOutOfRange
    | _, _ => .error .fieldOutOfRange
  else .error .reservedBits

/-- DIAG_COMPRESS: NPASS in [2:0], [23:3] reserved (30_encoding R79). -/
def decodeDiagCompress (cmd : Word) : Except Illegal Instr :=
  if cmd.extractLsb' 3 21 = 0#21 then
    match PassCount.ofNat? (cmd.extractLsb' 0 3).toNat with
    | some n => .ok (.diagCompress n)
    | none => .error .fieldOutOfRange
  else .error .reservedBits

/-- DIAG_FOLD: WIDTH in [23:8], [7:0] reserved (30_encoding R80). -/
def decodeDiagFold (cmd : Word) : Except Illegal Instr :=
  if cmd.extractLsb' 0 8 = 0#8 then
    match Width.ofNat? (cmd.extractLsb' 8 16).toNat with
    | some w => .ok (.diagFold w)
    | none => .error .fieldOutOfRange
  else .error .reservedBits

/-- The decoder (30_encoding R73, R86). -/
def decode (cmd : Word) : Except Illegal Instr :=
  if opField cmd = 0x01#8 then .ok (.init (cmd.extractLsb' 0 8) (cmd.extractLsb' 8 16))
  else if opField cmd = 0x02#8 then .ok (.absorb (cmd.extractLsb' 0 24))
  else if opField cmd = 0x03#8 then decodeFinalize cmd
  else if opField cmd = 0x10#8 then decodeDiagF cmd
  else if opField cmd = 0x11#8 then decodeDiagStep cmd
  else if opField cmd = 0x12#8 then decodeDiagCompress cmd
  else if opField cmd = 0x13#8 then decodeDiagFold cmd
  else .error .reservedOpcode

/-- The number of payload bytes a command requires (30_encoding R81). -/
def payloadLength : Instr → Nat
  | .init _ _ => 0
  | .absorb len => len.toNat
  | .finalize => 0
  | .diagF _ => 28
  | .diagStep _ _ _ => 160
  | .diagCompress _ => 160
  | .diagFold _ => 32

/-- The number of payload bytes a command word requires: 0 for one that selects no command (30_encoding R90). -/
def requiredPayload (cmd : Word) : Nat :=
  match decode cmd with
  | .ok i => payloadLength i
  | .error _ => 0

/-! The encoder. -/

/-- OP of a command (30_encoding R73). -/
def opcode : Instr → BitVec 8
  | .init _ _ => 0x01#8
  | .absorb _ => 0x02#8
  | .finalize => 0x03#8
  | .diagF _ => 0x10#8
  | .diagStep _ _ _ => 0x11#8
  | .diagCompress _ => 0x12#8
  | .diagFold _ => 0x13#8

/-- ARG of a command: its fields at the bits of 30_encoding R74 to R80, its reserved bits 0. -/
def argument : Instr → BitVec 24
  | .init passes width => width ++ passes
  | .absorb len => len
  | .finalize => 0#24
  | .diagF k => 0#21 ++ BitVec.ofNat 3 k.toNat
  | .diagStep n p i =>
    0#11 ++ BitVec.ofFin (w := 5) i ++ 0#1 ++ BitVec.ofNat 3 n.toNat ++ 0#1 ++ BitVec.ofNat 3 p.toNat
  | .diagCompress n => 0#21 ++ BitVec.ofNat 3 n.toNat
  | .diagFold w => BitVec.ofNat 16 w.bits ++ 0#8

/-- The command word of a command: OP above ARG (30_encoding R72). -/
def encode (i : Instr) : Word := opcode i ++ argument i

/-- What the decoder reads from the command word whose bits are the low `nbits` bits of `w`. A command word is one
32-bit value; no byte order of its own is given to it on the link (log 10). -/
def decodeTableWord (nbits w : Nat) : Option Instr :=
  match decode (BitVec.ofNat 32 (w % 2 ^ nbits)) with
  | .ok i => some i
  | .error _ => none

end Sys2Proof
end

