-- ==== Sys2Proof/Machine/State.lean ====
section
/-! DEFINITION. The engine's state (10_state R21), the host link around it (log 1), the reasons a step can stop, and
the state after reset (70_reset_and_hazards R290). -/

namespace Sys2Proof.Machine

/-- PHASE (10_state R22). The encoding value 3 is never held. -/
inductive Phase
  | unconfigured | active | finalized
deriving DecidableEq, Repr

/-- The codes LAST_ERR can name (60_exceptions R260). -/
inductive ErrCode
  /-- 0: the command succeeded. -/
  | none
  /-- 1: INIT with an illegal PASSES or WIDTH. -/
  | configuration
  /-- 2: ABSORB or FINALIZE outside ACTIVE. -/
  | stateMisuse
  /-- 3: allocated, never written by the engine (60_exceptions R265). -/
  | packing
  /-- 4: a word that selects no command, or a payload of the wrong length. -/
  | illegalCommand
deriving DecidableEq, Repr

/-- A transaction: one command word and a payload, delivered together (30_encoding R70). -/
structure Transaction where
  cmd : Word
  payload : List Byte
deriving DecidableEq, Repr

/-- What the host can do to the engine (70_reset_and_hazards R292, R295). -/
inductive Request
  /-- Perform a transaction. -/
  | transaction (x : Transaction)
  /-- Read STATUS. -/
  | readStatus
  /-- Assert reset, between transactions (`none`) or while one is in progress, which it abandons (`some`). -/
  | reset (abandoned : Option Transaction)
deriving DecidableEq, Repr

/-- What the engine gives back (30_encoding R71; 70_reset_and_hazards R295). A reset is not answered. -/
inductive Answer
  /-- The answer to a transaction: the new STATUS and the response bytes. -/
  | done (status : Word) (response : List Byte)
  /-- The answer to a read of STATUS. -/
  | status (word : Word)
deriving DecidableEq, Repr

/-- The elements that can hold no value (10_state R21). -/
inductive Element
  | cfgPasses | cfgWidth | acc | bitcnt | carry | blk | t
deriving DecidableEq, Repr

/-- Why a step can stop. Neither is reached from a state that meets the invariant of Sys2Proof/Safety.lean. -/
inductive Fault
  /-- An element was read while it held no value. Raised by every read of an element that can be ⊥; the spec asks for it
  (00_scope R13: "It must fault, not pick a value"). SAFE: the machine stops where the rules give no value. Log 2. -/
  | noValue (e : Element)
  /-- PACK met a length it cannot pack. Raised by `pack` and `wordVector` (40_word_packer R101, 60_exceptions R265:
  "It records a fault"). SAFE: no digest is produced. Log 3. -/
  | packing
deriving DecidableEq, Repr

/-- Why a command has no meaning in this model. -/
inductive Refusal
  /-- A command whose arm of `exec` has no meaning yet. SAFE. No arm answers with it. -/
  | notModelled (mnemonic : String)
deriving DecidableEq, Repr

/-- The machine: the ten elements of 10_state R21, then the host link (log 1). An element that holds no value (⊥) is
`none`. -/
structure State where
  /-- PHASE (10_state R22). -/
  phase : Phase
  /-- CFG_PASSES (10_state R23). -/
  cfgPasses : Option PassCount
  /-- CFG_WIDTH (10_state R24). -/
  cfgWidth : Option Width
  /-- ACC[0..7] (10_state R25). -/
  acc : Option (Vector Word 8)
  /-- BITCNT (10_state R28). -/
  bitcnt : Option DWord
  /-- CARRY (10_state R29). -/
  carry : Option (List Byte)
  /-- BLK[0..31] (10_state R27). -/
  blk : Option (Vector Word 32)
  /-- T[0..7] (10_state R26). -/
  t : Option (Vector Word 8)
  /-- STATUS.LAST_ERR (10_state R33). -/
  lastErr : ErrCode
  /-- STATUS.ERR_STICKY (10_state R34). -/
  errSticky : Bool
  /-- The host's requests not yet performed, the next one first. -/
  inbox : List Request
  /-- The payload of the command being performed (00_scope R12). -/
  payload : List Byte
  /-- The answers given, the oldest first (70_reset_and_hazards R299). -/
  answers : List Answer
deriving DecidableEq, Repr

/-- The state after reset (70_reset_and_hazards R290), with nothing on the link. -/
def State.reset : State :=
  { phase := .unconfigured
    cfgPasses := none
    cfgWidth := none
    acc := none
    bitcnt := none
    carry := none
    blk := none
    t := none
    lastErr := .none
    errSticky := false
    inbox := []
    payload := []
    answers := [] }

end Sys2Proof.Machine
end

