-- ==== Sys2Proof/Machine/Flags.lean ====
section
/-! DEFINITION. STATUS (10_state R32) and the codes of its fields. The engine has no condition codes and no arithmetic
flags (10_state R38): these fields are the only flags a host sees. -/

namespace Sys2Proof.Machine

/-- PHASE as STATUS encodes it (10_state R22). -/
def phaseCode : Phase → BitVec 2
  | .unconfigured => 0 | .active => 1 | .finalized => 2

/-- LAST_ERR as STATUS encodes it (60_exceptions R260). -/
def errCode : ErrCode → BitVec 3
  | .none => 0 | .configuration => 1 | .stateMisuse => 2 | .packing => 3 | .illegalCommand => 4

/-- The value of an element, or the fault of reading ⊥ (00_scope R13). -/
def readElement {α : Type} (e : Element) (v : Option α) : Except Fault α :=
  match v with
  | some x => .ok x
  | none => .error (.noValue e)

/-- STATUS from its fields, high to low: reserved [31:25], WIDTH [24:16], reserved [15:11], PASSES [10:8],
ERR_STICKY [7], LAST_ERR [6:4], reserved [3:2], PHASE [1:0] (10_state R32). -/
def statusWord (phase : Phase) (err : ErrCode) (sticky : Bool) (passes width : Nat) : Word :=
  0#7 ++ BitVec.ofNat 9 width ++ 0#5 ++ BitVec.ofNat 3 passes ++ BitVec.ofBool sticky ++ errCode err ++ 0#2
    ++ phaseCode phase

/-- STATUS of a state. PASSES and WIDTH show the configuration when PHASE ≠ UNCONFIGURED, else 0 (10_state R32). -/
def statusOf (s : State) : Except Fault Word :=
  match s.phase with
  | .unconfigured => .ok (statusWord .unconfigured s.lastErr s.errSticky 0 0)
  | .active | .finalized =>
    match readElement .cfgPasses s.cfgPasses, readElement .cfgWidth s.cfgWidth with
    | .ok n, .ok w => .ok (statusWord s.phase s.lastErr s.errSticky n.toNat w.bits)
    | .error f, _ => .error f
    | _, .error f => .error f

/-! ## Reading a STATUS word, as the host does (70_reset_and_hazards R297) -/

/-- The phase a code stands for. 3 is never read (10_state R32, 93_implementation_defined I4). -/
def phaseOf? (c : BitVec 2) : Option Phase :=
  if c = 0#2 then some .unconfigured else if c = 1#2 then some .active else if c = 2#2 then some .finalized else none

/-- The outcome a LAST_ERR code stands for. 3 and 5 to 7 are never written (60_exceptions R260,
93_implementation_defined I4). -/
def errOf? (c : BitVec 3) : Option ErrCode :=
  if c = 0#3 then some .none else if c = 1#3 then some .configuration else if c = 2#3 then some .stateMisuse
  else if c = 4#3 then some .illegalCommand else none

/-- What a STATUS word says. -/
structure StatusView where
  phase : Phase
  lastErr : ErrCode
  errSticky : Bool
  config : Option (PassCount × Width)
deriving DecidableEq, Repr

/-- The fields of a STATUS word; `none` for a word the engine never answers with (10_state R32). -/
def viewStatus (st : Word) : Option StatusView :=
  match phaseOf? (st.extractLsb' 0 2), errOf? (st.extractLsb' 4 3) with
  | some ph, some err =>
    if st.extractLsb' 2 2 = 0#2 ∧ st.extractLsb' 11 5 = 0#5 ∧ st.extractLsb' 25 7 = 0#7 then
      let sticky := st.getLsbD 7
      match ph with
      | .unconfigured =>
        if st.extractLsb' 8 3 = 0#3 ∧ st.extractLsb' 16 9 = 0#9 then some ⟨ph, err, sticky, none⟩ else none
      | .active | .finalized =>
        match PassCount.ofNat? (st.extractLsb' 8 3).toNat, Width.ofNat? (st.extractLsb' 16 9).toNat with
        | some n, some w => some ⟨ph, err, sticky, some (n, w)⟩
        | _, _ => none
    else none
  | _, _ => none

end Sys2Proof.Machine
end

