-- ==== Sys2Proof/Machine/Operands.lean ====
section
/-! DEFINITION. The Word Packer (40_word_packer): how payload bytes become word operands (30_encoding R82) and result
words become response bytes (20_memory R53 to R55). -/

namespace Sys2Proof.Machine

/-- Four bytes to one word, the first least significant (40_word_packer R100). -/
def packWord (b0 b1 b2 b3 : Byte) : Word :=
  b0.setWidth 32 ||| (b1.setWidth 32 <<< 8) ||| (b2.setWidth 32 <<< 16) ||| (b3.setWidth 32 <<< 24)

/-- The words of a byte sequence, four bytes at a time. -/
def packWords : List Byte → List Word
  | b0 :: b1 :: b2 :: b3 :: rest => packWord b0 b1 b2 b3 :: packWords rest
  | _ => []

/-- PACK (40_word_packer R100), with its length check (R101). -/
def pack (s : List Byte) : Except Fault (List Word) :=
  if s.length % 4 = 0 then .ok (packWords s) else .error .packing

/-- A sequence of exactly k words as a k-word operand. Another length is an internal mismatch (40_word_packer R101). -/
def wordVector (k : Nat) (ws : List Word) : Except Fault (Vector Word k) :=
  if h : ws.length = k then .ok ⟨⟨ws⟩, h⟩ else .error .packing

/-- A byte sequence as a k-word operand: `pack`, with k words expected. -/
def packVector (k : Nat) (s : List Byte) : Except Fault (Vector Word k) :=
  match pack s with
  | .ok ws => wordVector k ws
  | .error f => .error f

/-- The operands of DIAG_STEP and DIAG_COMPRESS: forty words, eight working words and then a block of 32
(30_encoding R81, R82). -/
def blockOperands (s : List Byte) : Except Fault (Vector Word 8 × Vector Word 32) :=
  match pack s with
  | .ok ws =>
    match wordVector 8 (ws.take 8), wordVector 32 (ws.drop 8) with
    | .ok T, .ok B => .ok (T, B)
    | .error f, _ => .error f
    | _, .error f => .error f
  | .error f => .error f

/-- The four bytes of a word, least significant first (40_word_packer R102). -/
def unpackWord (w : Word) : List Byte :=
  [w.extractLsb' 0 8, w.extractLsb' 8 8, w.extractLsb' 16 8, w.extractLsb' 24 8]

/-- UNPACK (40_word_packer R102). -/
def unpack (ws : List Word) : List Byte := ws.flatMap unpackWord

end Sys2Proof.Machine
end

