-- ==== Sys2Proof/Config.lean ====
section
/-! DEFINITION. The fixed parameters and the OPEN parameters of 00_scope R7.

Fixed sizes are named here once. The OPEN parameters: `N_ENGINES` is the length of the list of engines a platform
holds (Sys2Proof/Machine/Platform.lean); `HOST_PORT_MAP` is an argument of type `PortMap`; `HOST_LINK`, the handshake,
is what delivers the requests that stand in State's `inbox` (log 1). The spec leaves no result value open, so there is
no free value. -/

namespace Sys2Proof

/-- Bytes in a message block (00_scope R7). -/
def blockBytes : Nat := 128

/-- The most bytes one ABSORB can carry: LEN has 24 bits (00_scope R7, 30_encoding R75). -/
def maxAbsorb : Nat := 16777215

/-- `HOST_PORT_MAP` (00_scope R7, 20_memory R52, 60_exceptions R273 and R276, 70_reset_and_hazards R292): which engine a
host-side port addresses (`none`: the platform grants that port no engine), and whether one reset reaches every engine
or only the engine addressed. -/
structure PortMap where
  engineOf : Nat → Option Nat
  sharedReset : Bool

end Sys2Proof
end

