-- ==== Sys2Proof/Machine/Rom.lean ====
section
/-! DEFINITION. The constant ROM (10_state R35): the IV, the round constants K, the word orders ORD, the rows of PHI, and
VERSION. The engine never writes them. The spec supplies the values from general knowledge (93_implementation_defined
G3 to G8): log 6. -/

namespace Sys2Proof.Machine

/-- IV (42_compression R160). -/
def iv : Vector Word 8 :=
  #v[0x243F6A88#32, 0x85A308D3#32, 0x13198A2E#32, 0x03707344#32,
     0xA4093822#32, 0x299F31D0#32, 0x082EFA98#32, 0xEC4E6C89#32]

/-! Round constants (42_compression R161). K[1][i] = 0 for every i. -/

/-- K[2][0..31] (42_compression R161). -/
def roundConst2 : Vector Word 32 :=
  #v[0x452821E6#32, 0x38D01377#32, 0xBE5466CF#32, 0x34E90C6C#32,
     0xC0AC29B7#32, 0xC97C50DD#32, 0x3F84D5B5#32, 0xB5470917#32,
     0x9216D5D9#32, 0x8979FB1B#32, 0xD1310BA6#32, 0x98DFB5AC#32,
     0x2FFD72DB#32, 0xD01ADFB7#32, 0xB8E1AFED#32, 0x6A267E96#32,
     0xBA7C9045#32, 0xF12C7F99#32, 0x24A19947#32, 0xB3916CF7#32,
     0x0801F2E2#32, 0x858EFC16#32, 0x636920D8#32, 0x71574E69#32,
     0xA458FEA3#32, 0xF4933D7E#32, 0x0D95748F#32, 0x728EB658#32,
     0x718BCD58#32, 0x82154AEE#32, 0x7B54A41D#32, 0xC25A59B5#32]

/-- K[3][0..31] (42_compression R161). -/
def roundConst3 : Vector Word 32 :=
  #v[0x9C30D539#32, 0x2AF26013#32, 0xC5D1B023#32, 0x286085F0#32,
     0xCA417918#32, 0xB8DB38EF#32, 0x8E79DCB0#32, 0x603A180E#32,
     0x6C9E0E8B#32, 0xB01E8A3E#32, 0xD71577C1#32, 0xBD314B27#32,
     0x78AF2FDA#32, 0x55605C60#32, 0xE65525F3#32, 0xAA55AB94#32,
     0x57489862#32, 0x63E81440#32, 0x55CA396A#32, 0x2AAB10B6#32,
     0xB4CC5C34#32, 0x1141E8CE#32, 0xA15486AF#32, 0x7C72E993#32,
     0xB3EE1411#32, 0x636FBC2A#32, 0x2BA9C55D#32, 0x741831F6#32,
     0xCE5C3E16#32, 0x9B87931E#32, 0xAFD6BA33#32, 0x6C24CF5C#32]

/-- K[4][0..31] (42_compression R161). -/
def roundConst4 : Vector Word 32 :=
  #v[0x7A325381#32, 0x28958677#32, 0x3B8F4898#32, 0x6B4BB9AF#32,
     0xC4BFE81B#32, 0x66282193#32, 0x61D809CC#32, 0xFB21A991#32,
     0x487CAC60#32, 0x5DEC8032#32, 0xEF845D5D#32, 0xE98575B1#32,
     0xDC262302#32, 0xEB651B88#32, 0x23893E81#32, 0xD396ACC5#32,
     0x0F6D6FF3#32, 0x83F44239#32, 0x2E0B4482#32, 0xA4842004#32,
     0x69C8F04A#32, 0x9E1F9B5E#32, 0x21C66842#32, 0xF6E96C9A#32,
     0x670C9C61#32, 0xABD388F0#32, 0x6A51A0D2#32, 0xD8542F68#32,
     0x960FA728#32, 0xAB5133A3#32, 0x6EEF0B6C#32, 0x137A3BE4#32]

/-- K[5][0..31] (42_compression R161). -/
def roundConst5 : Vector Word 32 :=
  #v[0xBA3BF050#32, 0x7EFB2A98#32, 0xA1F1651D#32, 0x39AF0176#32,
     0x66CA593E#32, 0x82430E88#32, 0x8CEE8619#32, 0x456F9FB4#32,
     0x7D84A5C3#32, 0x3B8B5EBE#32, 0xE06F75D8#32, 0x85C12073#32,
     0x401A449F#32, 0x56C16AA6#32, 0x4ED3AA62#32, 0x363F7706#32,
     0x1BFEDF72#32, 0x429B023D#32, 0x37D0D724#32, 0xD00A1248#32,
     0xDB0FEAD3#32, 0x49F1C09B#32, 0x075372C9#32, 0x80991B7B#32,
     0x25D479D8#32, 0xF6E8DEF7#32, 0xE3FE501A#32, 0xB6794C3B#32,
     0x976CE0BD#32, 0x04C006BA#32, 0xC1A94FB6#32, 0x409F60C4#32]

/-- K[p][i] (42_compression R161). -/
def roundConst : PassIndex → Fin 32 → Word
  | .one, _ => 0#32
  | .two, i => roundConst2[i]
  | .three, i => roundConst3[i]
  | .four, i => roundConst4[i]
  | .five, i => roundConst5[i]

/-! Word orders (42_compression R163). -/

/-- ORD[1][0..31] (42_compression R163). -/
def wordOrder1 : Vector (Fin 32) 32 :=
  #v[0, 1, 2, 3, 4, 5, 6, 7, 8, 9, 10, 11, 12, 13, 14, 15,
     16, 17, 18, 19, 20, 21, 22, 23, 24, 25, 26, 27, 28, 29, 30, 31]

/-- ORD[2][0..31] (42_compression R163). -/
def wordOrder2 : Vector (Fin 32) 32 :=
  #v[5, 14, 26, 18, 11, 28, 7, 16, 0, 23, 20, 22, 1, 10, 4, 8,
     30, 3, 21, 9, 17, 24, 29, 6, 19, 12, 15, 13, 2, 25, 31, 27]

/-- ORD[3][0..31] (42_compression R163). -/
def wordOrder3 : Vector (Fin 32) 32 :=
  #v[19, 9, 4, 20, 28, 17, 8, 22, 29, 14, 25, 12, 24, 30, 16, 26,
     31, 15, 7, 3, 1, 0, 18, 27, 13, 6, 21, 10, 23, 11, 5, 2]

/-- ORD[4][0..31] (42_compression R163). -/
def wordOrder4 : Vector (Fin 32) 32 :=
  #v[24, 4, 0, 14, 2, 7, 28, 23, 26, 6, 30, 20, 18, 25, 19, 3,
     22, 11, 31, 21, 8, 27, 12, 9, 1, 29, 5, 15, 17, 10, 16, 13]

/-- ORD[5][0..31] (42_compression R163). -/
def wordOrder5 : Vector (Fin 32) 32 :=
  #v[27, 3, 21, 26, 17, 11, 20, 29, 19, 0, 12, 7, 13, 8, 31, 10,
     5, 9, 14, 30, 18, 6, 28, 24, 2, 23, 16, 22, 4, 1, 25, 15]

/-- ORD[p][i] (42_compression R163). -/
def wordOrder : PassIndex → Fin 32 → Fin 32
  | .one, i => wordOrder1[i]
  | .two, i => wordOrder2[i]
  | .three, i => wordOrder3[i]
  | .four, i => wordOrder4[i]
  | .five, i => wordOrder5[i]

/-- A pair (n, p) with 1 ≤ p ≤ n: a row of the PHI table (41_round_functions R127). There are twelve. -/
inductive PassRow
  | n3p1 | n3p2 | n3p3
  | n4p1 | n4p2 | n4p3 | n4p4
  | n5p1 | n5p2 | n5p3 | n5p4 | n5p5
deriving DecidableEq, Repr

/-- n of a row. -/
def PassRow.passCount : PassRow → PassCount
  | .n3p1 | .n3p2 | .n3p3 => .three
  | .n4p1 | .n4p2 | .n4p3 | .n4p4 => .four
  | .n5p1 | .n5p2 | .n5p3 | .n5p4 | .n5p5 => .five

/-- p of a row. -/
def PassRow.passIndex : PassRow → PassIndex
  | .n3p1 | .n4p1 | .n5p1 => .one
  | .n3p2 | .n4p2 | .n5p2 => .two
  | .n3p3 | .n4p3 | .n5p3 => .three
  | .n4p4 | .n5p4 => .four
  | .n5p5 => .five

/-- The passes of a compression with pass count n, in the order they are performed (42_compression R167). -/
def passRows : PassCount → List PassRow
  | .three => [.n3p1, .n3p2, .n3p3]
  | .four => [.n4p1, .n4p2, .n4p3, .n4p4]
  | .five => [.n5p1, .n5p2, .n5p3, .n5p4, .n5p5]

/-- The row of (n, p), if 1 ≤ p ≤ n. -/
def passRow? (n : PassCount) (p : PassIndex) : Option PassRow :=
  (passRows n).find? fun row => row.passIndex = p

/-- PHI(n, p): entry k is the number j of the step input x_j that is argument k of F_p (41_round_functions R127). -/
def selection : PassRow → Vector (Fin 7) 7
  | .n3p1 => #v[4, 2, 6, 5, 3, 0, 1]
  | .n3p2 => #v[6, 3, 5, 0, 1, 2, 4]
  | .n3p3 => #v[0, 5, 4, 3, 2, 1, 6]
  | .n4p1 => #v[0, 3, 5, 4, 1, 6, 2]
  | .n4p2 => #v[4, 6, 1, 0, 2, 5, 3]
  | .n4p3 => #v[5, 2, 0, 6, 3, 4, 1]
  | .n4p4 => #v[3, 1, 2, 5, 0, 4, 6]
  | .n5p1 => #v[6, 2, 5, 0, 1, 4, 3]
  | .n5p2 => #v[5, 4, 3, 0, 1, 2, 6]
  | .n5p3 => #v[5, 1, 3, 4, 0, 6, 2]
  | .n5p4 => #v[6, 4, 0, 2, 3, 5, 1]
  | .n5p5 => #v[1, 3, 4, 6, 0, 5, 2]

/-- VERSION (43_streaming R203). -/
def version : Nat := 1

end Sys2Proof.Machine
end

