-- ==== Sys2Proof/Machine/Round.lean ====
section
/-! DEFINITION. The Round Function Library (41_round_functions) and the Compression Core with its message scheduler
(42_compression), as pure functions. -/

namespace Sys2Proof.Machine

/-- Right rotation, for 0 < n < 32 (00_scope R10). -/
def rotr (x : Word) (n : Nat) : Word := (x >>> n) ||| (x <<< (32 - n))

/-! ## Round functions -/

/-- F1 (41_round_functions R121). -/
def f1 (x0 x1 x2 x3 x4 x5 x6 : Word) : Word :=
  (x1 &&& (x0 ^^^ x4)) ^^^ (x2 &&& x5) ^^^ (x3 &&& x6) ^^^ x0

/-- F2 (41_round_functions R122). -/
def f2 (x0 x1 x2 x3 x4 x5 x6 : Word) : Word :=
  (x2 &&& ((x1 &&& ~~~x3) ^^^ (x4 &&& x5) ^^^ x6 ^^^ x0)) ^^^ (x4 &&& (x1 ^^^ x5)) ^^^ (x3 &&& x5) ^^^ x0

/-- F3 (41_round_functions R123). -/
def f3 (x0 x1 x2 x3 x4 x5 x6 : Word) : Word :=
  (x3 &&& ((x1 &&& x2) ^^^ x6 ^^^ x0)) ^^^ (x1 &&& x4) ^^^ (x2 &&& x5) ^^^ x0

/-- F4 (41_round_functions R124). -/
def f4 (x0 x1 x2 x3 x4 x5 x6 : Word) : Word :=
  (x4 &&& ((x5 &&& ~~~x2) ^^^ (x3 &&& ~~~x6) ^^^ x1 ^^^ x6 ^^^ x0))
    ^^^ (x3 &&& ((x1 &&& x2) ^^^ x5 ^^^ x6)) ^^^ (x2 &&& x6) ^^^ x0

/-- F5 (41_round_functions R125). -/
def f5 (x0 x1 x2 x3 x4 x5 x6 : Word) : Word :=
  (x0 &&& ((x1 &&& x2 &&& x3) ^^^ ~~~x5)) ^^^ (x1 &&& x4) ^^^ (x2 &&& x5) ^^^ (x3 &&& x6)

/-- F_k of seven arguments in the order of the published formulas (41_round_functions R120). -/
def roundFn (k : PassIndex) (x : Vector Word 7) : Word :=
  match k with
  | .one => f1 x[0] x[1] x[2] x[3] x[4] x[5] x[6]
  | .two => f2 x[0] x[1] x[2] x[3] x[4] x[5] x[6]
  | .three => f3 x[0] x[1] x[2] x[3] x[4] x[5] x[6]
  | .four => f4 x[0] x[1] x[2] x[3] x[4] x[5] x[6]
  | .five => f5 x[0] x[1] x[2] x[3] x[4] x[5] x[6]

/-- The arguments PHI selects from the step inputs x0..x6 (41_round_functions R127). -/
def selected (row : PassRow) (x : Vector Word 7) : Vector Word 7 :=
  let σ := selection row
  #v[x[σ[0]], x[σ[1]], x[σ[2]], x[σ[3]], x[σ[4]], x[σ[5]], x[σ[6]]]

/-- FPHI (41_round_functions R128). -/
def fphi (row : PassRow) (x : Vector Word 7) : Word := roundFn row.passIndex (selected row x)

/-- FF, the step combiner, of the step inputs x0..x7, the message word w and the round constant c
(41_round_functions R129, R130). -/
def ff (row : PassRow) (x : Vector Word 8) (w c : Word) : Word :=
  rotr (fphi row #v[x[0], x[1], x[2], x[3], x[4], x[5], x[6]]) 7 + rotr x[7] 11 + w + c

/-! ## Steps, passes, compression -/

/-- The shift s = i mod 8 of step i (42_compression R165). -/
def stepShift (i : Fin 32) : Fin 8 := Fin.ofNat 8 i.val

/-- x_j = T[(j − s) mod 8] (42_compression R165). Subtraction in `Fin 8` is modulo 8. -/
def stepInputs (i : Fin 32) (T : Vector Word 8) : Vector Word 8 :=
  let s := stepShift i
  #v[T[0 - s], T[1 - s], T[2 - s], T[3 - s], T[4 - s], T[5 - s], T[6 - s], T[7 - s]]

/-- The working word step i writes: number (7 − s) mod 8 (42_compression R166). -/
def stepTarget (i : Fin 32) : Fin 8 := 7 - stepShift i

/-- The word step (p, i) writes, with the scheduled inputs of 42_compression R164. -/
def stepValue (row : PassRow) (i : Fin 32) (B : Vector Word 32) (T : Vector Word 8) : Word :=
  ff row (stepInputs i T) B[wordOrder row.passIndex i] (roundConst row.passIndex i)

/-- Step (p, i) of a compression of block B (42_compression R166). -/
def stepWords (row : PassRow) (i : Fin 32) (B : Vector Word 32) (T : Vector Word 8) : Vector Word 8 :=
  T.set (stepTarget i) (stepValue row i B T)

/-- The step indices of a pass, in order (42_compression R167). -/
def stepIndices : List (Fin 32) :=
  [0, 1, 2, 3, 4, 5, 6, 7, 8, 9, 10, 11, 12, 13, 14, 15, 16, 17, 18, 19, 20, 21, 22, 23, 24, 25, 26, 27, 28, 29, 30, 31]

/-- One pass: its 32 steps (42_compression R167). -/
def runPass (B : Vector Word 32) (T : Vector Word 8) (row : PassRow) : Vector Word 8 :=
  stepIndices.foldl (fun T i => stepWords row i B T) T

/-- The passes 1..n over the working words (42_compression R167). -/
def runPasses (n : PassCount) (B : Vector Word 32) (T : Vector Word 8) : Vector Word 8 :=
  (passRows n).foldl (runPass B) T

/-- Wordwise addition modulo 2^32, for the feed-forward (42_compression R169). -/
def addWords (a t : Vector Word 8) : Vector Word 8 :=
  #v[a[0] + t[0], a[1] + t[1], a[2] + t[2], a[3] + t[3], a[4] + t[4], a[5] + t[5], a[6] + t[6], a[7] + t[7]]

/-- COMPRESS (42_compression R168). -/
def compress (n : PassCount) (A : Vector Word 8) (B : Vector Word 32) : Vector Word 8 :=
  addWords A (runPasses n B A)

end Sys2Proof.Machine
end

