-- ==== Sys2Proof/Machine/Padding.lean ====
section
/-! DEFINITION. Bit counting, padding, the tail and the fold (43_streaming R192, R198 to R211), as pure functions. -/

namespace Sys2Proof.Machine

/-- BITCNT after LEN more bytes, modulo 2^64 (43_streaming R191, R192). -/
def addBits (c : DWord) (len : BitVec 24) : DWord := c + 8#64 * len.setWidth 64

/-! ## Padding and tail -/

/-- The padding length for a carry of r bytes (43_streaming R198). -/
def padLength (r : Nat) : Nat := if r < 118 then 118 - r else 246 - r

/-- PAD: the 0x01 marker, then zeros (43_streaming R199). -/
def padBytes (r : Nat) : List Byte := 0x01#8 :: List.replicate (padLength r - 1) 0#8

/-- TAIL byte 0 (43_streaming R200). -/
def tailTag (n : PassCount) (w : Width) : Byte :=
  BitVec.ofNat 8 (((w.bits &&& 0x3) <<< 6) ||| ((n.toNat &&& 0x7) <<< 3) ||| (version &&& 0x7))

/-- TAIL byte 1 (43_streaming R201). -/
def tailWidth (w : Width) : Byte := BitVec.ofNat 8 ((w.bits >>> 2) &&& 0xFF)

/-- BITCNT_LO (10_state R28). -/
def bitcntLo (c : DWord) : Word := c.extractLsb' 0 32

/-- BITCNT_HI (10_state R28). -/
def bitcntHi (c : DWord) : Word := c.extractLsb' 32 32

/-- TAIL, 10 bytes (43_streaming R200 to R202). -/
def tailBytes (n : PassCount) (w : Width) (c : DWord) : List Byte :=
  tailTag n w :: tailWidth w :: (unpack [bitcntLo c] ++ unpack [bitcntHi c])

/-- CARRY ++ PAD ++ TAIL, what FINALIZE compresses (43_streaming R195). -/
def paddedMessage (n : PassCount) (w : Width) (c : DWord) (carry : List Byte) : List Byte :=
  carry ++ padBytes carry.length ++ tailBytes n w c

/-! ## Fold -/

/-- FOLD 256 (43_streaming R206). -/
def fold256 (V : Vector Word 8) : List Word := [V[0], V[1], V[2], V[3], V[4], V[5], V[6], V[7]]

/-- FOLD 224 (43_streaming R207). -/
def fold224 (V : Vector Word 8) : List Word :=
  [V[0] + ((V[7] >>> 27) &&& 0x1F#32),
   V[1] + ((V[7] >>> 22) &&& 0x1F#32),
   V[2] + ((V[7] >>> 18) &&& 0x0F#32),
   V[3] + ((V[7] >>> 13) &&& 0x1F#32),
   V[4] + ((V[7] >>> 9) &&& 0x0F#32),
   V[5] + ((V[7] >>> 4) &&& 0x1F#32),
   V[6] + (V[7] &&& 0x0F#32)]

/-- FOLD 192 (43_streaming R208). -/
def fold192 (V : Vector Word 8) : List Word :=
  [V[0] + rotr ((V[7] &&& 0x0000001F#32) ||| (V[6] &&& 0xFC000000#32)) 26,
   V[1] + ((V[7] &&& 0x000003E0#32) ||| (V[6] &&& 0x0000001F#32)),
   V[2] + (((V[7] &&& 0x0000FC00#32) ||| (V[6] &&& 0x000003E0#32)) >>> 5),
   V[3] + (((V[7] &&& 0x001F0000#32) ||| (V[6] &&& 0x0000FC00#32)) >>> 10),
   V[4] + (((V[7] &&& 0x03E00000#32) ||| (V[6] &&& 0x001F0000#32)) >>> 16),
   V[5] + (((V[7] &&& 0xFC000000#32) ||| (V[6] &&& 0x03E00000#32)) >>> 21)]

/-- FOLD 160 (43_streaming R209). -/
def fold160 (V : Vector Word 8) : List Word :=
  [V[0] + rotr ((V[7] &&& 0x0000003F#32) ||| (V[6] &&& 0xFE000000#32) ||| (V[5] &&& 0x01F80000#32)) 19,
   V[1] + rotr ((V[7] &&& 0x00000FC0#32) ||| (V[6] &&& 0x0000003F#32) ||| (V[5] &&& 0xFE000000#32)) 25,
   V[2] + ((V[7] &&& 0x0007F000#32) ||| (V[6] &&& 0x00000FC0#32) ||| (V[5] &&& 0x0000003F#32)),
   V[3] + (((V[7] &&& 0x01F80000#32) ||| (V[6] &&& 0x0007F000#32) ||| (V[5] &&& 0x00000FC0#32)) >>> 6),
   V[4] + (((V[7] &&& 0xFE000000#32) ||| (V[6] &&& 0x01F80000#32) ||| (V[5] &&& 0x0007F000#32)) >>> 12)]

/-- FOLD 128 (43_streaming R210). -/
def fold128 (V : Vector Word 8) : List Word :=
  [V[0] + rotr ((V[7] &&& 0x000000FF#32) ||| (V[6] &&& 0xFF000000#32) ||| (V[5] &&& 0x00FF0000#32)
      ||| (V[4] &&& 0x0000FF00#32)) 8,
   V[1] + rotr ((V[7] &&& 0x0000FF00#32) ||| (V[6] &&& 0x000000FF#32) ||| (V[5] &&& 0xFF000000#32)
      ||| (V[4] &&& 0x00FF0000#32)) 16,
   V[2] + rotr ((V[7] &&& 0x00FF0000#32) ||| (V[6] &&& 0x0000FF00#32) ||| (V[5] &&& 0x000000FF#32)
      ||| (V[4] &&& 0xFF000000#32)) 24,
   V[3] + ((V[7] &&& 0xFF000000#32) ||| (V[6] &&& 0x00FF0000#32) ||| (V[5] &&& 0x0000FF00#32)
      ||| (V[4] &&& 0x000000FF#32))]

/-- FOLD dispatch (43_streaming R205). -/
def fold (w : Width) (V : Vector Word 8) : List Word :=
  match w with
  | .w256 => fold256 V
  | .w224 => fold224 V
  | .w192 => fold192 V
  | .w160 => fold160 V
  | .w128 => fold128 V

/-- The digest bytes (43_streaming R211). -/
def digestBytes (w : Width) (V : Vector Word 8) : List Byte := unpack (fold w V)

end Sys2Proof.Machine
end

