-- ==== Sys2Proof/Machine/Ops.lean ====
section
/-! DEFINITION. The shared operations every command is written with: reading elements, answering, rejecting
(60_exceptions R262; the engine has no trap entry and no trap return, R270, R271), succeeding (R267), the payload check
(R263 (c), R266), and the compression of blocks into ACC. -/

namespace Sys2Proof.Machine

/-- The outcome of a step of this machine. -/
abbrev Result := Host.Outcome State Fault Refusal

/-- Go on with a value, or stop with the fault that stands in its place. -/
def withValue {α : Type} (r : Except Fault α) (k : α → Result) : Result :=
  match r with
  | .ok v => k v
  | .error f => .fault f

/-- Go on with the state an operation leaves. -/
def andThen (r : Result) (k : State → Result) : Result :=
  match r with
  | .next s => k s
  | .fault f => .fault f
  | .refused m => .refused m

/-! ## The end of a transaction -/

/-- Answer the transaction with the new STATUS and a response (30_encoding R71); the payload is gone. -/
def reply (response : List Byte) (s : State) : Result :=
  withValue (statusOf s) fun st =>
    .next { s with payload := [], answers := s.answers ++ [.done st response] }

/-- `raise E`: only LAST_ERR and ERR_STICKY change; the response is empty (60_exceptions R262). -/
def reject (e : ErrCode) (s : State) : Result :=
  reply [] { s with lastErr := e, errSticky := true }

/-- A command that passed every check: LAST_ERR is NONE, ERR_STICKY is unchanged (60_exceptions R267). -/
def succeed (response : List Byte) (s : State) : Result :=
  reply response { s with lastErr := .none }

/-- The payload-length check, which comes before every other check of a decoded command (30_encoding R81;
60_exceptions R263 (c), R266). -/
def requirePayload (len : Nat) (s : State) (k : Result) : Result :=
  if s.payload.length = len then k else reject .illegalCommand s

/-! ## Compression of the message into ACC -/

/-- BLK <- pack(128 bytes) (43_streaming R191, R195). -/
def loadBlock (bytes : List Byte) (s : State) : Result :=
  withValue (packVector 32 bytes) fun b => .next { s with blk := some b }

/-- T <- ACC, then the passes over T with BLK (42_compression R167, R168). -/
def runWorking (s : State) : Result :=
  withValue (readElement .cfgPasses s.cfgPasses) fun n =>
  withValue (readElement .acc s.acc) fun a =>
  withValue (readElement .blk s.blk) fun b =>
    .next { s with t := some (runPasses n b a) }

/-- ACC[j] <- ACC[j] + T[j]; T <- ⊥ (42_compression R169). -/
def feedForward (s : State) : Result :=
  withValue (readElement .acc s.acc) fun a =>
  withValue (readElement .t s.t) fun t =>
    .next { s with acc := some (addWords a t), t := none }

/-- ACC <- compress(CFG_PASSES, ACC, BLK) (42_compression R168). -/
def compressBlock (s : State) : Result := andThen (runWorking s) feedForward

/-- Compress the first k blocks of a byte sequence into ACC, in order (43_streaming R193, R195). -/
def compressBlocks : Nat → List Byte → State → Result
  | 0, _, s => .next s
  | k + 1, bytes, s =>
    andThen (loadBlock (bytes.take blockBytes) s) fun s1 =>
    andThen (compressBlock s1) fun s2 =>
    compressBlocks k (bytes.drop blockBytes) s2

end Sys2Proof.Machine
end

