-- ==== Sys2Proof/Machine/Diagnostic.lean ====
section
/-! DEFINITION. The diagnostic commands (44_diagnostic R240 to R244): pure functions of the command word, the payload and
the ROM, accepted in every phase. They write LAST_ERR and their response only; DT and DB are local values. -/

namespace Sys2Proof.Machine

/-- DIAG_F (44_diagnostic R241). -/
def execDiagF (k : PassIndex) (s : State) : Result :=
  requirePayload 28 s <|
    withValue (packVector 7 s.payload) fun x =>
    succeed (unpack [roundFn k x]) s

/-- DIAG_STEP (44_diagnostic R242). A PASS above NPASS has no row of PHI and is ILLEGAL_COMMAND (30_encoding R84); the
decoder never delivers one (log 11). -/
def execDiagStep (n : PassCount) (p : PassIndex) (i : Fin 32) (s : State) : Result :=
  match passRow? n p with
  | none => reject .illegalCommand s
  | some row =>
    requirePayload 160 s <|
      withValue (blockOperands s.payload) fun o =>
      succeed (unpack (stepWords row i o.2 o.1).toList) s

/-- DIAG_COMPRESS (44_diagnostic R243). -/
def execDiagCompress (n : PassCount) (s : State) : Result :=
  requirePayload 160 s <|
    withValue (blockOperands s.payload) fun o =>
    succeed (unpack (compress n o.1 o.2).toList) s

/-- DIAG_FOLD (44_diagnostic R244). -/
def execDiagFold (w : Width) (s : State) : Result :=
  requirePayload 32 s <|
    withValue (packVector 8 s.payload) fun V =>
    succeed (unpack (fold w V)) s

end Sys2Proof.Machine
end

