-- ==== Sys2Proof/Machine/Streaming.lean ====
section
/-! DEFINITION. The Streaming State Machine's commands: INIT, ABSORB, FINALIZE (43_streaming R190 to R211). -/

namespace Sys2Proof.Machine

/-- The state an accepted INIT sets up, before its answer (43_streaming R190). -/
def initialised (n : PassCount) (w : Width) (s : State) : State :=
  { s with
    cfgPasses := some n
    cfgWidth := some w
    acc := some iv
    bitcnt := some 0#64
    carry := some []
    blk := none
    t := none
    phase := .active }

/-- INIT (43_streaming R190), CONFIGURATION when a value is illegal (60_exceptions R261). Accepted in every phase. -/
def execInit (passes : BitVec 8) (width : BitVec 16) (s : State) : Result :=
  requirePayload 0 s <|
    match PassCount.ofNat? passes.toNat, Width.ofNat? width.toNat with
    | some n, some w => succeed [] (initialised n w s)
    | _, _ => reject .configuration s

/-- The phase check of ABSORB and FINALIZE (60_exceptions R264). -/
def requireActive (s : State) (k : Result) : Result :=
  if s.phase = .active then k else reject .stateMisuse s

/-- ABSORB in ACTIVE with its payload checked (43_streaming R191 to R193). -/
def absorbPayload (len : BitVec 24) (s : State) : Result :=
  withValue (readElement .bitcnt s.bitcnt) fun c =>
  withValue (readElement .carry s.carry) fun carry =>
    let buf := carry ++ s.payload
    let blocks := buf.length / blockBytes
    andThen (compressBlocks blocks buf { s with bitcnt := some (addBits c len) }) fun s1 =>
    succeed [] { s1 with carry := some (buf.drop (blockBytes * blocks)) }

/-- ABSORB (43_streaming R191). -/
def execAbsorb (len : BitVec 24) (s : State) : Result :=
  requirePayload len.toNat s (requireActive s (absorbPayload len s))

/-- The state an accepted FINALIZE leaves, before its answer (43_streaming R196). -/
def cleared (s : State) : State :=
  { s with phase := .finalized, acc := none, bitcnt := none, carry := none, blk := none, t := none }

/-- FINALIZE in ACTIVE with its payload checked (43_streaming R195, R196). -/
def finalizeMessage (s : State) : Result :=
  withValue (readElement .cfgPasses s.cfgPasses) fun n =>
  withValue (readElement .cfgWidth s.cfgWidth) fun w =>
  withValue (readElement .carry s.carry) fun carry =>
  withValue (readElement .bitcnt s.bitcnt) fun c =>
    let msg := paddedMessage n w c carry
    andThen (compressBlocks (msg.length / blockBytes) msg s) fun s1 =>
    withValue (readElement .acc s1.acc) fun a =>
    succeed (digestBytes w a) (cleared s1)

/-- FINALIZE (43_streaming R194). -/
def execFinalize (s : State) : Result :=
  requirePayload 0 s (requireActive s (finalizeMessage s))

end Sys2Proof.Machine
end

