-- ==== Sys2Proof/Machine/Dispatch.lean ====
section
/-! DEFINITION. Which meaning each command has: one arm per constructor of `Instr` (30_encoding R73). -/

namespace Sys2Proof.Machine

def exec (i : Instr) (s : State) : Host.Outcome State Fault Refusal :=
  match i with
  | .init passes width => Sys2Proof.Machine.execInit passes width s
  | .absorb len => Sys2Proof.Machine.execAbsorb len s
  | .finalize => Sys2Proof.Machine.execFinalize s
  | .diagF k => Sys2Proof.Machine.execDiagF k s
  | .diagStep n p k => Sys2Proof.Machine.execDiagStep n p k s
  | .diagCompress n => Sys2Proof.Machine.execDiagCompress n s
  | .diagFold w => Sys2Proof.Machine.execDiagFold w s

end Sys2Proof.Machine
end

