-- ==== Sys2Proof/Machine/Link.lean ====
section
/-! DEFINITION. The host link (log 1): how the engine serves the host's next request, and how the host's requests are
placed. -/

namespace Sys2Proof.Machine

/-- Perform a transaction: decode its command word, and run the command on its payload; a word that selects no command is
rejected with ILLEGAL_COMMAND, whatever its payload (30_encoding R70, R86; 60_exceptions R263, R266). -/
def perform (x : Transaction) (s : State) : Result :=
  match decode x.cmd with
  | .ok i => exec i { s with payload := x.payload }
  | .error _ => reject .illegalCommand s

/-- Answer a read of STATUS: no side effect on the engine (10_state R32, 20_memory R58). -/
def answerStatus (s : State) : Result :=
  withValue (statusOf s) fun st => .next { s with answers := s.answers ++ [.status st] }

/-- Reset: every element of the engine takes its reset value; what stands on the link outside the engine, the later
requests and the answers already given, stays (70_reset_and_hazards R290, R292; log 13). -/
def resetEngine (s : State) : State :=
  { State.reset with inbox := s.inbox, answers := s.answers }

/-- Serve one request. A transaction that a reset abandons leaves no effect and gets no answer
(70_reset_and_hazards R292). -/
def serve (r : Request) (s : State) : Result :=
  match r with
  | .transaction x => perform x s
  | .readStatus => answerStatus s
  | .reset _ => .next (resetEngine s)

/-- Serve the next request of the inbox; with none, the engine is idle and holds its state (70_reset_and_hazards R298). -/
def serveNext (s : State) : Result :=
  match s.inbox with
  | [] => .next s
  | r :: rest => serve r { s with inbox := rest }

/-- The transaction of a command word with a payload of zeros, of the length the word requires. -/
def zeroTransaction (cmd : Word) : Transaction :=
  ⟨cmd, List.replicate (requiredPayload cmd) 0#8⟩

/-- Place a request before every other one. -/
def placeFirst (r : Request) (s : State) : State := { s with inbox := r :: s.inbox }

end Sys2Proof.Machine
end

