-- ==== Sys2Proof/Machine/Step.lean ====
section
/-! DEFINITION. The step: one request of the host (20_memory R57, R59). -/

namespace Sys2Proof.Machine

/-- One step serves the host's next request. -/
def step (s : State) : Host.Outcome State Fault Refusal := serveNext s

/-- The state in which the next request is the transaction of the command word whose bits are the low `nbits` bits of
`w`, with a payload of zeros of the length that word requires. The engine fetches nothing (10_state R37): a command
comes to run because the host sends it (log 14). -/
def State.withFetchWord (s : State) (nbits w : Nat) : State :=
  placeFirst (.transaction (zeroTransaction (BitVec.ofNat 32 (w % 2 ^ nbits)))) s

end Sys2Proof.Machine
end

