-- ==== Sys2Proof/Machine/Pseudo.lean ====
section
/-! DEFINITION. What a host sends: one request per command, and the pseudo-commands HASH (30_encoding R88) and HASH_FILE
(30_encoding R89), which are command sequences. -/

namespace Sys2Proof.Machine

/-- The transaction of a command with a payload (30_encoding R70). -/
def request (i : Instr) (payload : List Byte) : Request := .transaction ⟨encode i, payload⟩

/-- `INIT n, w` with legal values. -/
def initRequest (n : PassCount) (w : Width) : Request :=
  request (.init (BitVec.ofNat 8 n.toNat) (BitVec.ofNat 16 w.bits)) []

/-- `ABSORB data`: LEN is the length of the data, which is at most `maxAbsorb` bytes (30_encoding R75). -/
def absorbRequest (data : List Byte) : Request :=
  request (.absorb (BitVec.ofNat 24 data.length)) data

/-- `FINALIZE`. -/
def finalizeRequest : Request := request .finalize []

/-- INIT, one ABSORB per chunk, FINALIZE (30_encoding R88). -/
def hashRequests (n : PassCount) (w : Width) (chunks : List (List Byte)) : List Request :=
  initRequest n w :: (chunks.map absorbRequest ++ [finalizeRequest])

/-- Consecutive pieces of `size` bytes and a last shorter one; none of an empty sequence. `fuel` bounds their number. -/
def chunksOf (size : Nat) : Nat → List Byte → List (List Byte)
  | 0, _ => []
  | _ + 1, [] => []
  | fuel + 1, b :: bs => (b :: bs).take size :: chunksOf size fuel ((b :: bs).drop size)

/-- HASH with the canonical split into chunks of `maxAbsorb` bytes (30_encoding R88). -/
def hashCommand (n : PassCount) (w : Width) (data : List Byte) : List Request :=
  hashRequests n w (chunksOf maxAbsorb data.length data)

/-- HASH_FILE: what the host sends for the chunks it has read, in any sizes; after a read failure it issues no FINALIZE
(30_encoding R89, 60_exceptions R268, 70_reset_and_hazards R297). -/
def hashFileRequests (n : PassCount) (w : Width) (chunks : List (List Byte)) (readFailed : Bool) : List Request :=
  if readFailed then initRequest n w :: chunks.map absorbRequest else hashRequests n w chunks

end Sys2Proof.Machine
end

