-- ==== Sys2Proof/Machine/Assembler.lean ====
section
/-! DEFINITION. The assembler syntax of 30_encoding R87 and R88: one transaction per line. `parseLine` reads a line of
characters, `assemble` gives the requests it stands for. Fields are written as numbers and need not be legal: an illegal
value is assembled as it stands, and the engine rejects it. How blanks, comments and the digits' prefix are read is log 15. -/

namespace Sys2Proof.Machine

/-- A line, its operands as written. -/
inductive Line
  | init (passes width : Nat)
  | absorb (data : List Byte)
  | finalize
  | diagF (k : Nat) (x : List Word)
  | diagStep (n p i : Nat) (t b : List Word)
  | diagCompress (n : Nat) (a b : List Word)
  | diagFold (width : Nat) (v : List Word)
  /-- `STATUS?`, a register read, not a command. -/
  | readStatus
  /-- `; text`, or a blank line. -/
  | comment
  /-- The pseudo-command of 30_encoding R88. -/
  | hash (passes width : Nat) (data : List Byte)
deriving DecidableEq, Repr

/-! ## From a line to requests -/

/-- A number as a field of so many bits, if it fits. -/
def fieldOf (bits v : Nat) : Option (BitVec bits) := if v < 2 ^ bits then some (BitVec.ofNat bits v) else none

/-- A command word from OP and ARG, with a payload (30_encoding R70, R72). -/
def rawRequest (op : BitVec 8) (arg : BitVec 24) (payload : List Byte) : Request := .transaction ⟨op ++ arg, payload⟩

/-- Exactly `k` words, packed as 30_encoding R82 says. -/
def operandWords (k : Nat) (ws : List Word) : Option (List Byte) := if ws.length = k then some (unpack ws) else none

/-- `INIT passes, width` (30_encoding R74). -/
def assembleInit (passes width : Nat) : Option Request :=
  match fieldOf 8 passes, fieldOf 16 width with
  | some p, some w => some (rawRequest 0x01#8 (w ++ p) [])
  | _, _ => none

/-- `ABSORB data`, of at most 16 777 215 bytes (30_encoding R75). -/
def assembleAbsorb (data : List Byte) : Option Request :=
  match fieldOf 24 data.length with
  | some len => some (rawRequest 0x02#8 len data)
  | none => none

/-- The requests of a line; `none` where an operand does not fit its field or is not of the required number of words. -/
def assemble : Line → Option (List Request)
  | .init passes width => (assembleInit passes width).map fun r => [r]
  | .absorb data => (assembleAbsorb data).map fun r => [r]
  | .finalize => some [rawRequest 0x03#8 0#24 []]
  | .diagF k x =>
    match fieldOf 3 k, operandWords 7 x with
    | some k, some payload => some [rawRequest 0x10#8 (0#21 ++ k) payload]
    | _, _ => none
  | .diagStep n p i t b =>
    match fieldOf 3 n, fieldOf 3 p, fieldOf 5 i, operandWords 8 t, operandWords 32 b with
    | some n, some p, some i, some t, some b =>
      some [rawRequest 0x11#8 (0#11 ++ i ++ 0#1 ++ n ++ 0#1 ++ p) (t ++ b)]
    | _, _, _, _, _ => none
  | .diagCompress n a b =>
    match fieldOf 3 n, operandWords 8 a, operandWords 32 b with
    | some n, some a, some b => some [rawRequest 0x12#8 (0#21 ++ n) (a ++ b)]
    | _, _, _ => none
  | .diagFold width v =>
    match fieldOf 16 width, operandWords 8 v with
    | some w, some payload => some [rawRequest 0x13#8 (w ++ 0#8) payload]
    | _, _ => none
  | .readStatus => some [.readStatus]
  | .comment => some []
  | .hash passes width data =>
    match assembleInit passes width, (chunksOf maxAbsorb data.length data).mapM assembleAbsorb with
    | some first, some absorbs => some (first :: (absorbs ++ [rawRequest 0x03#8 0#24 []]))
    | _, _ => none

/-! ## From characters to a line -/

/-- Space or tab. -/
def isBlank (c : Char) : Bool := c = ' ' || c = '\t'

/-- The pieces of a text between separators. -/
def splitBy (sep : Char → Bool) (cs : List Char) : List (List Char) :=
  cs.foldr (fun c acc =>
    if sep c then [] :: acc
    else match acc with
      | [] => [[c]]
      | x :: xs => (c :: x) :: xs) [[]]

/-- The blank-separated words of a text. -/
def tokens (cs : List Char) : List (List Char) := (splitBy isBlank cs).filter fun x => !x.isEmpty

/-- A decimal digit. -/
def decDigit (c : Char) : Option Nat := if '0' ≤ c ∧ c ≤ '9' then some (c.toNat - '0'.toNat) else none

/-- A hexadecimal digit, in capitals or not. -/
def hexDigit (c : Char) : Option Nat :=
  if '0' ≤ c ∧ c ≤ '9' then some (c.toNat - '0'.toNat)
  else if 'a' ≤ c ∧ c ≤ 'f' then some (c.toNat - 'a'.toNat + 10)
  else if 'A' ≤ c ∧ c ≤ 'F' then some (c.toNat - 'A'.toNat + 10)
  else none

/-- The number a nonempty sequence of digits of a base stands for. -/
def number (base : Nat) (digit : Char → Option Nat) (cs : List Char) : Option Nat :=
  match cs with
  | [] => none
  | cs => (cs.mapM digit).map fun ds => ds.foldl (fun v d => v * base + d) 0

/-- One decimal number with blanks around it. -/
def decimal (cs : List Char) : Option Nat :=
  match tokens cs with
  | [x] => number 10 decDigit x
  | _ => none

/-- A hexadecimal u32, with or without `0x`. -/
def hexWord (cs : List Char) : Option Word :=
  let digits := match cs with
    | '0' :: 'x' :: rest => rest
    | cs => cs
  match number 16 hexDigit digits with
  | some v => fieldOf 32 v
  | none => none

/-- A hexadecimal byte. -/
def hexByte (cs : List Char) : Option Byte :=
  match number 16 hexDigit cs with
  | some v => fieldOf 8 v
  | none => none

/-- The text before the first `;`, and the text after it. -/
def cutAt (sep : Char) (cs : List Char) : List Char × List Char :=
  (cs.takeWhile (· ≠ sep), (cs.dropWhile (· ≠ sep)).drop 1)

/-- Nothing is left of a line but blanks and a comment. -/
def lineEnds (cs : List Char) : Bool :=
  match cs.dropWhile isBlank with
  | [] => true
  | c :: _ => c = ';'

/-- `bytes(a..b)`: the bytes i mod 256 for i from a to b − 1 (30_encoding R87). -/
def byteRange (a b : Nat) : List Byte := (List.range (b - a)).map fun i => BitVec.ofNat 8 (a + i)

/-- `<data>`: a quoted ASCII string, `hex(00 01 ff …)`, or `bytes(a..b)`; then the end of the line. -/
def parseData (cs : List Char) : Option (List Byte) :=
  match cs.dropWhile isBlank with
  | '"' :: rest =>
    let (text, after) := cutAt '"' rest
    if rest.any (· = '"') ∧ text.all (fun c => c.toNat < 128) ∧ lineEnds after
      then some (text.map fun c => BitVec.ofNat 8 c.toNat) else none
  | 'h' :: 'e' :: 'x' :: '(' :: rest =>
    let (text, after) := cutAt ')' rest
    if rest.any (· = ')') ∧ lineEnds after then (tokens text).mapM hexByte else none
  | 'b' :: 'y' :: 't' :: 'e' :: 's' :: '(' :: rest =>
    let (text, after) := cutAt ')' rest
    let (a, b) := cutAt '.' text
    match decimal a, b with
    | some a, '.' :: b =>
      match decimal b with
      | some b => if rest.any (· = ')') ∧ lineEnds after then some (byteRange a b) else none
      | none => none
    | _, _ => none
  | _ => none

/-- Word operands between `;` and the next `;` or the end. -/
def parseWords (cs : List Char) : Option (List Word) := (tokens cs).mapM hexWord

/-- The decimal operands of a command, separated by commas. -/
def parseFields (cs : List Char) : Option (List Nat) := (splitBy (· = ',') cs).mapM decimal

/-- One line (30_encoding R87, R88). -/
def parseLine (cs : List Char) : Option Line :=
  let cs := cs.dropWhile isBlank
  let mnemonic := cs.takeWhile fun c => !isBlank c && c ≠ ';'
  let rest := cs.drop mnemonic.length
  let (fields, after) := cutAt ';' rest
  let (words1, after1) := cutAt ';' after
  let (words2, _) := cutAt ';' after1
  match String.ofList mnemonic with
  | "" => some .comment
  | "INIT" =>
    match parseFields fields with
    | some [p, w] => some (.init p w)
    | _ => none
  | "ABSORB" => (parseData rest).map .absorb
  | "FINALIZE" => if lineEnds rest then some .finalize else none
  | "STATUS?" => if lineEnds rest then some .readStatus else none
  | "DIAG_F" =>
    match parseFields fields, parseWords words1 with
    | some [k], some x => some (.diagF k x)
    | _, _ => none
  | "DIAG_STEP" =>
    match parseFields fields, parseWords words1, parseWords words2 with
    | some [n, p, i], some t, some b => some (.diagStep n p i t b)
    | _, _, _ => none
  | "DIAG_COMPRESS" =>
    match parseFields fields, parseWords words1, parseWords words2 with
    | some [n], some a, some b => some (.diagCompress n a b)
    | _, _, _ => none
  | "DIAG_FOLD" =>
    match parseFields fields, parseWords words1 with
    | some [w], some v => some (.diagFold w v)
    | _, _ => none
  | "HASH" =>
    let (p, rest1) := cutAt ',' rest
    let (w, data) := cutAt ',' rest1
    match decimal p, decimal w, parseData data with
    | some p, some w, some data => some (.hash p w data)
    | _, _, _ => none
  | _ => none

/-- A program: the requests of its lines, in order (30_encoding R87). -/
def assembleProgram (lines : List (List Char)) : Option (List Request) :=
  (lines.mapM fun cs => (parseLine cs).bind assemble).map List.flatten

end Sys2Proof.Machine
end

