-- ==== Sys2Proof/Machine/Platform.lean ====
section
/-! DEFINITION. A platform of N_ENGINES engines (20_memory R60, 60_exceptions R276): a list of engines, each with a state of
its own; they share only the ROM. `HOST_PORT_MAP` says which engine a port addresses (log 8). -/

namespace Sys2Proof.Machine

/-- A platform of `count` engines after reset. -/
def platformReset (count : Nat) : List State := List.replicate count State.reset

/-- One step of engine number k, which no other engine takes part in. With no engine of that number nothing happens. -/
def stepEngine (k : Nat) (engines : List State) : Host.Outcome (List State) Fault Refusal :=
  match engines[k]? with
  | none => .next engines
  | some s =>
    match step s with
    | .next s' => .next (engines.set k s')
    | .fault f => .fault f
    | .refused r => .refused r

/-- Put a request at the end of an engine's inbox: requests are performed in the order issued (20_memory R59). -/
def issue (r : Request) (s : State) : State := { s with inbox := s.inbox ++ [r] }

/-- The host sends a request to a port. A port the map grants no engine delivers nothing. A reset reaches every engine
where the map shares reset (70_reset_and_hazards R292). -/
def deliver (map : PortMap) (port : Nat) (r : Request) (engines : List State) : List State :=
  match map.engineOf port, r with
  | none, _ => engines
  | some k, .reset abandoned =>
    if map.sharedReset then engines.map (issue (.reset abandoned)) else engines.modify k (issue (.reset abandoned))
  | some k, r => engines.modify k (issue r)

end Sys2Proof.Machine
end

