-- ==== Sys2Proof/Safety.lean ====
section
/-! DEFINITION. The terms claims are stated in: the invariant of the engine, the launch states, a run's observation, and
the digest of a whole message. -/

namespace Sys2Proof.Machine

/-! ## The invariant -/

/-- Which elements hold a value in each phase (10_state R21 to R30, 43_streaming R190 and R196, 70_reset_and_hazards R290).
In ACTIVE, CARRY is shorter than a block and agrees with BITCNT (10_state R30). -/
def PhaseInv (s : State) : Prop :=
  match s.phase with
  | .unconfigured =>
    s.cfgPasses = none ∧ s.cfgWidth = none ∧ s.acc = none ∧ s.bitcnt = none ∧ s.carry = none ∧ s.blk = none
  | .active =>
    ∃ n w a c carry, s.cfgPasses = some n ∧ s.cfgWidth = some w ∧ s.acc = some a ∧ s.bitcnt = some c ∧
      s.carry = some carry ∧ carry.length < 128 ∧ carry.length = (c >>> 3).toNat % 128
  | .finalized =>
    ∃ n w, s.cfgPasses = some n ∧ s.cfgWidth = some w ∧ s.acc = none ∧ s.bitcnt = none ∧ s.carry = none ∧
      s.blk = none

/-- The invariant of the engine's elements: the phase's own, T without a value between commands (10_state R26), and
LAST_ERR never PACKING (60_exceptions R265). -/
def EngineInv (s : State) : Prop :=
  PhaseInv s ∧ s.t = none ∧ s.lastErr ≠ .packing

/-- The invariant between transactions: the engine's, and no transaction in flight (70_reset_and_hazards R300). -/
def StateInv (s : State) : Prop := EngineInv s ∧ s.payload = []

/-- An answer never carries both a rejection and response bytes (70_reset_and_hazards R295; 60_exceptions R262). -/
def AnswerExclusive : Answer → Prop
  | .done st response => st.extractLsb' 4 3 ≠ 0#3 → response = []
  | .status _ => True

/-! ## Launch states and runs (70_reset_and_hazards R299, R300) -/

/-- Clean: the reset state, with any requests on the link. -/
def clean (requests : List Request) : State := { State.reset with inbox := requests }

/-- Configured: the state after an accepted `INIT n, w`, with ERR_STICKY as the premise states it. -/
def configured (n : PassCount) (w : Width) (sticky : Bool) (requests : List Request) : State :=
  { initialised n w State.reset with errSticky := sticky, inbox := requests }

/-- The observation of a run: the (STATUS, response) pairs of its transactions, in order. -/
def observation (s : State) : List (Word × List Byte) :=
  s.answers.filterMap fun a =>
    match a with
    | .done st response => some (st, response)
    | .status _ => none

/-! ## How a command ends -/

/-- `s'` once its command is answered: the payload is gone and the answer is the last of the answers
(30_encoding R71). -/
def answered (s' : State) (st : Word) (response : List Byte) : State :=
  { s' with payload := [], answers := s'.answers ++ [.done st response] }

/-- The outcome is the next state `s'`, answered with the STATUS that `s'` shows and with `response`. -/
def CompletesWith (r : Result) (s' : State) (response : List Byte) : Prop :=
  ∃ st, statusOf s' = .ok st ∧ r = .next (answered s' st response)

/-- The outcome is `s` rejected with code `e` (60_exceptions R262). -/
def RejectedWith (r : Result) (s : State) (e : ErrCode) : Prop :=
  CompletesWith r { s with lastErr := e, errSticky := true } []

/-- What stands in a state that a command other than FINALIZE may show the host: everything but ACC, BITCNT, CARRY, BLK
and T (60_exceptions R277, R278). -/
def visible (s : State) : State :=
  { s with acc := none, bitcnt := none, carry := none, blk := none, t := none }

/-! ## Command words that select no command -/

/-- A known OP with a nonzero reserved bit, or with a diagnostic field outside its legal values (30_encoding R84). -/
def BadArgument (cmd : Word) : Prop :=
  (opField cmd = 0x03#8 ∧ cmd.extractLsb' 0 24 ≠ 0#24) ∨
  (opField cmd = 0x10#8 ∧ (cmd.extractLsb' 3 21 ≠ 0#21 ∨ (cmd.extractLsb' 0 3).toNat ∉ [1, 2, 3, 4, 5])) ∨
  (opField cmd = 0x11#8 ∧ (cmd.extractLsb' 13 11 ≠ 0#11 ∨ cmd.getLsbD 7 = true ∨ cmd.getLsbD 3 = true ∨
    (cmd.extractLsb' 4 3).toNat ∉ [3, 4, 5] ∨ (cmd.extractLsb' 0 3).toNat = 0 ∨
    (cmd.extractLsb' 4 3).toNat < (cmd.extractLsb' 0 3).toNat)) ∨
  (opField cmd = 0x12#8 ∧ (cmd.extractLsb' 3 21 ≠ 0#21 ∨ (cmd.extractLsb' 0 3).toNat ∉ [3, 4, 5])) ∨
  (opField cmd = 0x13#8 ∧ (cmd.extractLsb' 0 8 ≠ 0#8 ∨
    (cmd.extractLsb' 8 16).toNat ∉ [128, 160, 192, 224, 256]))

/-- The diagnostic commands (44_diagnostic). -/
def isDiagnostic : Instr → Bool
  | .init _ _ | .absorb _ | .finalize => false
  | .diagF _ | .diagStep _ _ _ | .diagCompress _ | .diagFold _ => true

/-! ## The steps of a compression -/

/-- The positions (pass, step) of a compression, in the order of 10_state R31. -/
def stepSequence (n : PassCount) : List (PassRow × Fin 32) :=
  (passRows n).flatMap fun row => stepIndices.map fun i => (row, i)

/-! ## Where the constants come from -/

/-- `scale · arctan(1/k)` by the arctangent series, each term cut to an integer: `term` is scale / k^(2i+1). -/
def arctanInverse (k : Nat) : Nat → Nat → Nat → Int
  | 0, _, _ => 0
  | fuel + 1, i, term =>
    (if i % 2 = 0 then (1 : Int) else -1) * ((term / (2 * i + 1) : Nat) : Int)
      + arctanInverse k fuel (i + 1) (term / (k * k))

/-- π · 2^bits by Machin's formula, 16 arctan(1/5) − 4 arctan(1/239), of bits / 4 terms each (a term of the first series is
25 times smaller than the one before it): the check 93_implementation_defined G4 names. -/
def machinPi (bits : Nat) : Nat :=
  (16 * arctanInverse 5 (bits / 4) 0 (2 ^ bits / 5) - 4 * arctanInverse 239 (bits / 4) 0 (2 ^ bits / 239)).toNat

/-- Word m of the fraction of π from π · 2^(32 · 136 + 64): Π[m] of 42_compression R162, for m < 136. -/
def piWord (scaled : Nat) (m : Nat) : Word := BitVec.ofNat 32 (scaled >>> (32 * (135 - m) + 64))

/-- The IV and the round constants in the order of 42_compression R162. -/
def constantWords : List Word :=
  iv.toList ++ roundConst2.toList ++ roundConst3.toList ++ roundConst4.toList ++ roundConst5.toList

/-- The coefficients of a Boolean function's polynomial over GF(2), from its table of 2^k values; entry m is the
coefficient of the product of the variables whose bits are set in m. -/
def polynomialOf : Nat → List Bool → List Bool
  | 0, values => values
  | k + 1, values =>
    let low := values.take (2 ^ k)
    let high := values.drop (2 ^ k)
    polynomialOf k low ++ polynomialOf k (List.zipWith xor low high)

/-- The table of bit 0 of F_k: entry v is its value at the arguments whose bits 0 are the bits of v. -/
def roundTable (k : PassIndex) : List Bool :=
  (List.range 128).map fun v =>
    let x (j : Nat) : Word := BitVec.ofBool (v.testBit j) |>.setWidth 32
    (roundFn k #v[x 0, x 1, x 2, x 3, x 4, x 5, x 6]).getLsbD 0

/-- The number of variables in a product: the set bits of its index. -/
def weight (m : Nat) : Nat := ((List.range 7).filter m.testBit).length

/-- The degree of F_k as a polynomial over GF(2) (41_round_functions R126). -/
def degree (k : PassIndex) : Nat :=
  ((polynomialOf 7 (roundTable k)).zipIdx.map fun c => if c.1 then weight c.2 else 0).foldl max 0

/-! ## The digest of a whole message -/

/-- Word j of a byte sequence: bytes 4j to 4j + 3, the first least significant (40_word_packer R100). -/
def wordAt (s : List Byte) (j : Nat) : Word :=
  packWord (s.getD (4 * j) 0) (s.getD (4 * j + 1) 0) (s.getD (4 * j + 2) 0) (s.getD (4 * j + 3) 0)

/-- The first k words of a byte sequence that has them. -/
def wordsAt (k : Nat) (s : List Byte) : Vector Word k := ⟨⟨(List.range k).map (wordAt s)⟩, by simp⟩

/-- COMPRESS over the first k blocks of a byte sequence, in order (42_compression R171). -/
def compressAll (n : PassCount) : Nat → Vector Word 8 → List Byte → Vector Word 8
  | 0, a, _ => a
  | k + 1, a, bytes => compressAll n k (compress n a (wordsAt 32 bytes)) (bytes.drop blockBytes)

/-- The block last loaded when the first k blocks of a byte sequence were compressed. -/
def lastBlock (k : Nat) (bytes : List Byte) (old : Option (Vector Word 32)) : Option (Vector Word 32) :=
  if k = 0 then old else some (wordsAt 32 ((bytes.drop (128 * (k - 1))).take 128))

/-- A message of L bytes padded whole: the marker and zeros, then the tail with its length in bits modulo 2^64
(43_streaming R195, R198 to R204, R214). -/
def paddedWhole (n : PassCount) (w : Width) (msg : List Byte) : List Byte :=
  msg ++ padBytes (msg.length % blockBytes) ++ tailBytes n w (BitVec.ofNat 64 (8 * msg.length))

/-- The digest of a message, as a function of (n, w, message) alone (43_streaming R213). -/
def messageDigest (n : PassCount) (w : Width) (msg : List Byte) : List Byte :=
  let padded := paddedWhole n w msg
  digestBytes w (compressAll n (padded.length / blockBytes) iv padded)

end Sys2Proof.Machine
end

