-- ==== Sys2Proof/Certificates/Slice0/Obligations.lean ====
section
/-! DEFINITION. The statements of this model for the provers. Each says in its docstring which rule of spec/ it formalises.
A statement about a state starts from `EngineInv` or `StateInv` where, in states no run reaches, an element that STATUS or the
command reads would hold no value; that every step keeps the invariant is itself stated (StepKeepsInvariant). -/

open Sys2Proof Sys2Proof.Machine

/-! ## Reset, idle, and the step -/

/-- 70_reset_and_hazards R290: every element at its reset value, STATUS reads 0, and no command reads an element that
holds no value. -/
def Obligations.ResetHoldsNoValues : Prop :=
  State.reset.phase = .unconfigured ∧ State.reset.cfgPasses = none ∧ State.reset.cfgWidth = none ∧
  State.reset.acc = none ∧ State.reset.bitcnt = none ∧ State.reset.carry = none ∧ State.reset.blk = none ∧
  State.reset.t = none ∧ State.reset.lastErr = .none ∧ State.reset.errSticky = false ∧
  statusOf State.reset = .ok 0x00000000#32 ∧
  ∀ (i : Instr) (payload : List Byte), ∃ t, exec i { State.reset with payload := payload } = .next t

/-- The reset state meets the invariant (derived from 70_reset_and_hazards R290 and 10_state R30). -/
def Obligations.ResetMeetsInvariant : Prop := StateInv State.reset

/-- Every step keeps the invariant: which elements hold a value in each phase, CARRY shorter than a block and in agreement
with BITCNT (10_state R30), T without a value (R26), LAST_ERR never PACKING (60_exceptions R265). -/
def Obligations.StepKeepsInvariant : Prop :=
  ∀ s t : State, StateInv s → step s = .next t → StateInv t

/-- From every state that meets the invariant a step gives a next state: no command reads ⊥ (00_scope R13), none reaches
PACKING (40_word_packer R101), none is refused (60_exceptions R267). -/
def Obligations.EveryStepGivesANextState : Prop :=
  ∀ s : State, StateInv s → ∃ t, step s = .next t

/-- A step takes the first request of the inbox and gives at most one answer, after those given before
(20_memory R57, R59). -/
def Obligations.RequestsServedInOrder : Prop :=
  ∀ s t : State, step s = .next t →
    t.inbox = s.inbox.tail ∧ ∃ new, t.answers = s.answers ++ new ∧ new.length ≤ 1

/-- A transaction whose word decodes to a command is a run of that command on the transaction's payload, the request
having left the inbox (30_encoding R70, R86). -/
def Obligations.StepRunsDecodedCommand : Prop :=
  ∀ (s : State) (x : Transaction) (rest : List Request) (i : Instr),
    s.inbox = .transaction x :: rest → decode x.cmd = .ok i →
      step s = exec i { s with inbox := rest, payload := x.payload }

/-- 70_reset_and_hazards R298: without a request the engine holds every element. -/
def Obligations.IdleEngineHoldsState : Prop :=
  ∀ s : State, s.inbox = [] → step s = .next s

/-- Reset, between transactions or abandoning one, gives the reset state and no answer (70_reset_and_hazards R292). That
the answers already given and the later requests stay is the model's choice (log 13). -/
def Obligations.ResetRequestResetsEngine : Prop :=
  ∀ (s : State) (abandoned : Option Transaction) (rest : List Request),
    s.inbox = .reset abandoned :: rest →
      step s = .next { State.reset with inbox := rest, answers := s.answers }

/-- The launch state Configured is what an accepted INIT leaves of the launch state Clean (70_reset_and_hazards R300). -/
def Obligations.ConfiguredIsCleanAfterInit : Prop :=
  ∀ (n : PassCount) (w : Width) (rest : List Request),
    ∃ st, step (clean (initRequest n w :: rest)) =
      .next { configured n w false rest with answers := [.done st []] }

/-! ## STATUS -/

/-- 10_state R32: the layout of STATUS, that reading it changes nothing, and the rule's example. -/
def Obligations.StatusRegisterLayout : Prop :=
  (∀ (s : State) (st : Word), statusOf s = .ok st →
    st.extractLsb' 0 2 = phaseCode s.phase ∧ st.extractLsb' 0 2 ≠ 3#2 ∧ st.extractLsb' 2 2 = 0#2 ∧
    st.extractLsb' 4 3 = errCode s.lastErr ∧ st.getLsbD 7 = s.errSticky ∧
    st.extractLsb' 11 5 = 0#5 ∧ st.extractLsb' 25 7 = 0#7 ∧
    (s.phase = .unconfigured → st.extractLsb' 8 3 = 0#3 ∧ st.extractLsb' 16 9 = 0#9) ∧
    (s.phase ≠ .unconfigured → ∃ n w, s.cfgPasses = some n ∧ s.cfgWidth = some w ∧
      (st.extractLsb' 8 3).toNat = n.toNat ∧ (st.extractLsb' 16 9).toNat = w.bits)) ∧
  (∀ (s : State) (rest : List Request), EngineInv s → s.inbox = .readStatus :: rest →
    ∃ st, statusOf s = .ok st ∧
      step s = .next { s with inbox := rest, answers := s.answers ++ [.status st] }) ∧
  (∃ t, step (clean [initRequest .five .w256]) = .next t ∧ t.answers = [.done 0x01000501#32 []])

/-- A host that reads a STATUS word finds in it the state's phase, outcome, stickiness and configuration; it meets no
word of the kinds 93_implementation_defined I4 and I5 exclude. -/
def Obligations.HostReadsStatusBack : Prop :=
  ∀ (s : State) (st : Word), EngineInv s → statusOf s = .ok st →
    viewStatus st = some
      ⟨s.phase, s.lastErr, s.errSticky, s.cfgPasses.bind fun n => s.cfgWidth.map fun w => (n, w)⟩

/-- 10_state R34: every rejected command sets ERR_STICKY, and only reset clears it. -/
def Obligations.StickyErrorUntilReset : Prop :=
  (∀ (x : Transaction) (s t : State), perform x s = .next t → t.lastErr ≠ .none → t.errSticky = true) ∧
  (∀ s t : State, step s = .next t → s.errSticky = true → t.errSticky = false →
    ∃ abandoned, s.inbox.head? = some (.reset abandoned)) ∧
  (∀ (s : State) (abandoned : Option Transaction) (rest : List Request), s.inbox = .reset abandoned :: rest →
    ∃ t, step s = .next t ∧ t.errSticky = false)

/-- 10_state R22: the transitions of PHASE. -/
def Obligations.PhaseTransitions : Prop :=
  (∀ (passes : BitVec 8) (width : BitVec 16) (s t : State),
    exec (.init passes width) s = .next t → t.lastErr = .none → t.phase = .active) ∧
  (∀ s t : State, exec .finalize s = .next t → t.lastErr = .none → s.phase = .active ∧ t.phase = .finalized) ∧
  (∀ (s t : State) (abandoned : Option Transaction) (rest : List Request),
    s.inbox = .reset abandoned :: rest → step s = .next t → t.phase = .unconfigured) ∧
  (∀ (i : Instr) (s t : State), exec i s = .next t → t.lastErr ≠ .none → t.phase = s.phase) ∧
  (∀ (i : Instr) (s t : State), (∀ passes width, i ≠ .init passes width) → i ≠ .finalize →
    exec i s = .next t → t.phase = s.phase) ∧
  (∀ (x : Transaction) (e : Illegal) (s t : State), decode x.cmd = .error e → perform x s = .next t →
    t.phase = s.phase)

/-- Only an accepted INIT writes CFG_PASSES and CFG_WIDTH, with the values of its fields (10_state R23, R24). -/
def Obligations.OnlyInitWritesConfiguration : Prop :=
  ∀ (i : Instr) (s t : State), exec i s = .next t →
    (t.cfgPasses = s.cfgPasses ∧ t.cfgWidth = s.cfgWidth) ∨
    ∃ (passes : BitVec 8) (width : BitVec 16) (n : PassCount) (w : Width), i = .init passes width ∧
      t.lastErr = .none ∧ passes.toNat = n.toNat ∧ width.toNat = w.bits ∧
      t.cfgPasses = some n ∧ t.cfgWidth = some w

/-- No answer carries both a rejection and response bytes (30_encoding R71, 70_reset_and_hazards R295). -/
def Obligations.AnswersAreExclusive : Prop :=
  ∀ s t : State, step s = .next t → (∀ a ∈ s.answers, AnswerExclusive a) → ∀ a ∈ t.answers, AnswerExclusive a

/-! ## Encoding -/

/-- Command words written in the spec (30_encoding R74 to R80, 43_streaming R190, 95_test_vectors) decode as it says. -/
def Obligations.SampleWordsDecode : Prop :=
  decode 0x01008003#32 = .ok (.init 3#8 128#16) ∧
  decode 0x01006403#32 = .ok (.init 3#8 100#16) ∧
  decode 0x02000001#32 = .ok (.absorb 1#24) ∧
  decode 0x03000000#32 = .ok .finalize ∧
  decode 0x10000001#32 = .ok (.diagF .one) ∧
  decode 0x11000031#32 = .ok (.diagStep .three .one 0) ∧
  decode 0x11001F55#32 = .ok (.diagStep .five .five 31) ∧
  decode 0x12000003#32 = .ok (.diagCompress .three) ∧
  decode 0x13008000#32 = .ok (.diagFold .w128) ∧
  decode 0x03000001#32 = .error .reservedBits ∧
  decode 0x11000034#32 = .error .fieldOutOfRange ∧
  decode 0x14000000#32 = .error .reservedOpcode

/-- Decoding the word of a well-formed command gives the command back, with every operand at every value
(30_encoding R74 to R80, R86). -/
def Obligations.DecodeOfEncode : Prop :=
  ∀ i : Instr, i.wellFormed = true → decode (encode i) = .ok i

/-- A word that decodes is the encoding of the well-formed command it decodes to: each accepted word has one meaning and no
bit of it is ignored (30_encoding R84, R86). -/
def Obligations.DecodedWordIsTheEncoding : Prop :=
  ∀ (cmd : Word) (i : Instr), decode cmd = .ok i → i.wellFormed = true ∧ encode i = cmd

/-- 30_encoding R83: a reserved OP selects no command and is rejected with ILLEGAL_COMMAND, whatever its payload. -/
def Obligations.ReservedOpcodesRejected : Prop :=
  ∀ cmd : Word, (opField cmd).toNat ∉ [0x01, 0x02, 0x03, 0x10, 0x11, 0x12, 0x13] →
    decode cmd = .error .reservedOpcode ∧
    ∀ (s : State) (payload : List Byte) (rest : List Request), StateInv s →
      s.inbox = .transaction ⟨cmd, payload⟩ :: rest → RejectedWith (step s) { s with inbox := rest } .illegalCommand

/-- 30_encoding R84: a nonzero reserved bit or a diagnostic field out of range is rejected with ILLEGAL_COMMAND; INIT's
fields out of range give CONFIGURATION instead. -/
def Obligations.ReservedBitsAndFieldsRejected : Prop :=
  (∀ cmd : Word, BadArgument cmd →
    (∃ e, decode cmd = .error e) ∧
    ∀ (s : State) (payload : List Byte) (rest : List Request), StateInv s →
      s.inbox = .transaction ⟨cmd, payload⟩ :: rest → RejectedWith (step s) { s with inbox := rest } .illegalCommand) ∧
  (∀ cmd : Word, opField cmd = 0x01#8 →
    ((cmd.extractLsb' 0 8).toNat ∉ [3, 4, 5] ∨ (cmd.extractLsb' 8 16).toNat ∉ [128, 160, 192, 224, 256]) →
    ∀ (s : State) (rest : List Request), StateInv s →
      s.inbox = .transaction ⟨cmd, []⟩ :: rest → RejectedWith (step s) { s with inbox := rest } .configuration)

/-- 30_encoding R90: the payload a word requires, from the word alone. -/
def Obligations.PayloadLengthFromCommandWord : Prop :=
  ∀ cmd : Word,
    (opField cmd = 0x02#8 → requiredPayload cmd = cmd.toNat % 2 ^ 24) ∧
    (opField cmd = 0x01#8 → requiredPayload cmd = 0) ∧
    (∀ e, decode cmd = .error e → requiredPayload cmd = 0) ∧
    (∀ i, decode cmd = .ok i →
      (opField cmd = 0x03#8 → requiredPayload cmd = 0) ∧ (opField cmd = 0x10#8 → requiredPayload cmd = 28) ∧
      (opField cmd = 0x11#8 → requiredPayload cmd = 160) ∧ (opField cmd = 0x12#8 → requiredPayload cmd = 160) ∧
      (opField cmd = 0x13#8 → requiredPayload cmd = 32))

/-! ## How commands end -/

/-- 60_exceptions R262: a rejected transaction, which leaves LAST_ERR other than NONE, changes LAST_ERR and ERR_STICKY and
nothing else of the engine; its payload is gone and its response is empty. -/
def Obligations.RejectionChangesStatusOnly : Prop :=
  ∀ (x : Transaction) (s t : State), perform x s = .next t → t.lastErr ≠ .none →
    ∃ st, statusOf { s with lastErr := t.lastErr, errSticky := true } = .ok st ∧
      t = answered { s with lastErr := t.lastErr, errSticky := true } st []

/-- Every transaction either succeeds, with LAST_ERR NONE and ERR_STICKY as before, or is rejected with one code. That one of
the two happens is an inference the spec marks as its own ("Every engine command is total ...", 60_exceptions R267). -/
def Obligations.CommandsSucceedOrAreRejected : Prop :=
  ∀ (x : Transaction) (s : State), EngineInv s →
    (∃ s' response, s'.lastErr = .none ∧ s'.errSticky = s.errSticky ∧ CompletesWith (perform x s) s' response) ∨
    (∃ e, e ≠ .none ∧ RejectedWith (perform x s) s e)

/-- A payload of the wrong length is rejected with ILLEGAL_COMMAND, before any other check of the command
(60_exceptions R263 (c), R266). -/
def Obligations.WrongPayloadLengthRejected : Prop :=
  ∀ (i : Instr) (s : State), EngineInv s → s.payload.length ≠ payloadLength i →
    RejectedWith (exec i s) s .illegalCommand

/-- 60_exceptions R264: ABSORB and FINALIZE outside ACTIVE, and no other command, give STATE_MISUSE; with the rule's
example. -/
def Obligations.MisuseRejected : Prop :=
  (∀ s : State, EngineInv s → s.phase ≠ .active →
    (∀ len : BitVec 24, s.payload.length = len.toNat → RejectedWith (exec (.absorb len) s) s .stateMisuse) ∧
    (s.payload = [] → RejectedWith (exec .finalize s) s .stateMisuse)) ∧
  (∀ (i : Instr) (s t : State), exec i s = .next t → t.lastErr = .stateMisuse →
    s.phase ≠ .active ∧ (i = .finalize ∨ ∃ len, i = .absorb len)) ∧
  (∃ t, Host.Core.run core 3 (clean [initRequest .three .w128, finalizeRequest, absorbRequest [0x61#8]]) = .next t ∧
    t.lastErr = .stateMisuse ∧ t.phase = .finalized)

/-! ## INIT, ABSORB, FINALIZE -/

/-- 43_streaming R190 and 60_exceptions R261: INIT with legal values, in every phase, starts a computation; every other
value is rejected with CONFIGURATION. -/
def Obligations.InitStartsComputation : Prop :=
  (∀ (passes : BitVec 8) (width : BitVec 16), decode (0x01#8 ++ (width ++ passes)) = .ok (.init passes width)) ∧
  (∀ (n : PassCount) (w : Width) (s : State), EngineInv s → s.payload = [] →
    CompletesWith (exec (.init (BitVec.ofNat 8 n.toNat) (BitVec.ofNat 16 w.bits)) s)
      { s with
        phase := .active, cfgPasses := some n, cfgWidth := some w, acc := some iv, bitcnt := some 0#64
        carry := some [], blk := none, t := none, lastErr := .none } []) ∧
  (∀ (passes : BitVec 8) (width : BitVec 16) (s : State), EngineInv s → s.payload = [] →
    (passes.toNat ∉ [3, 4, 5] ∨ width.toNat ∉ [128, 160, 192, 224, 256]) →
    RejectedWith (exec (.init passes width) s) s .configuration)

/-- 43_streaming R191 and R193: ABSORB in ACTIVE counts its bytes, compresses the full blocks of CARRY ++ payload in order,
and keeps the rest; of no bytes it changes nothing but STATUS; outside ACTIVE it is rejected. What BLK holds after it is
AbsorbLeavesTheLastBlock. -/
def Obligations.AbsorbAddsItsPayload : Prop :=
  (∀ len : BitVec 24, decode (0x02#8 ++ len) = .ok (.absorb len)) ∧
  (∀ (s : State) (n : PassCount) (a : Vector Word 8) (c : DWord) (carry : List Byte) (len : BitVec 24),
    EngineInv s → s.phase = .active → s.cfgPasses = some n → s.acc = some a → s.bitcnt = some c →
    s.carry = some carry → s.payload.length = len.toNat →
    ∃ b, CompletesWith (exec (.absorb len) s)
      { s with
        bitcnt := some (c + 8#64 * len.setWidth 64)
        acc := some (compressAll n ((carry.length + s.payload.length) / 128) a (carry ++ s.payload))
        blk := b
        carry := some ((carry ++ s.payload).drop (128 * ((carry.length + s.payload.length) / 128)))
        lastErr := .none } []) ∧
  (∀ s : State, EngineInv s → s.phase = .active → s.payload = [] →
    CompletesWith (exec (.absorb 0#24) s) { s with lastErr := .none } []) ∧
  (∀ (s : State) (len : BitVec 24), EngineInv s → s.phase ≠ .active → s.payload.length = len.toNat →
    RejectedWith (exec (.absorb len) s) s .stateMisuse)

/-- After an ABSORB, BLK holds the last block compressed, or what it held where none was: the model's reading of the
writes 43_streaming R191 lists (log 4). -/
def Obligations.AbsorbLeavesTheLastBlock : Prop :=
  ∀ (s t : State) (carry : List Byte) (len : BitVec 24), EngineInv s → s.phase = .active → s.carry = some carry →
    s.payload.length = len.toNat → exec (.absorb len) s = .next t →
    t.blk = lastBlock ((carry ++ s.payload).length / 128) (carry ++ s.payload) s.blk

/-- 43_streaming R192: the update of BITCNT in halves, with the carry from the low half into the high half. -/
def Obligations.BitCounterHalves : Prop :=
  ∀ (c : DWord) (len : BitVec 24),
    let sum : BitVec 64 := (bitcntLo c).setWidth 64 + 8#64 * len.setWidth 64
    bitcntLo (addBits c len) = sum.extractLsb' 0 32 ∧
    bitcntHi (addBits c len) = bitcntHi c + sum.extractLsb' 32 32 ∧
    (sum.extractLsb' 32 32).toNat ≤ 1

/-- 43_streaming R195 and R196: FINALIZE in ACTIVE compresses CARRY, the padding and the tail, answers with the folded
accumulator, and clears the computation. Outside ACTIVE it is rejected. -/
def Obligations.FinalizeEmitsTheDigest : Prop :=
  decode 0x03000000#32 = .ok .finalize ∧
  (∀ (s : State) (n : PassCount) (w : Width) (a : Vector Word 8) (c : DWord) (carry : List Byte),
    EngineInv s → s.phase = .active → s.cfgPasses = some n → s.cfgWidth = some w → s.acc = some a →
    s.bitcnt = some c → s.carry = some carry → s.payload = [] →
    let msg := carry ++ padBytes carry.length ++ tailBytes n w c
    CompletesWith (exec .finalize s)
      { s with
        phase := .finalized, acc := none, bitcnt := none, carry := none, blk := none, t := none, lastErr := .none }
      (unpack (fold w (compressAll n (msg.length / 128) a msg)))) ∧
  (∀ s : State, EngineInv s → s.phase ≠ .active → s.payload = [] → RejectedWith (exec .finalize s) s .stateMisuse)

/-- A second FINALIZE is rejected and emits nothing (43_streaming R194). -/
def Obligations.SecondFinalizeRejected : Prop :=
  ∀ (s : State) (rest : List Request), StateInv s → s.phase = .active →
    s.inbox = finalizeRequest :: finalizeRequest :: rest →
    ∃ t u st, step s = .next t ∧ step t = .next u ∧ u.phase = .finalized ∧ u.lastErr = .stateMisuse ∧
      u.answers = t.answers ++ [.done st []]

/-- 43_streaming R198 and R199: the padding's length and its bytes. -/
def Obligations.PaddingLengthAndBytes : Prop :=
  ∀ r : Nat, r ≤ 127 →
    (r < 118 → padLength r = 118 - r) ∧ (118 ≤ r → padLength r = 246 - r) ∧
    (r + padLength r + 10) % 128 = 0 ∧ 1 ≤ padLength r ∧ padLength r ≤ 128 ∧
    padBytes r = [0x01#8] ++ List.replicate (padLength r - 1) 0#8 ∧
    (padBytes r).length = padLength r

/-- The one or two final blocks. What the two blocks hold is an inference the spec marks as its own ("In the two-block case,
the first block is ...", 43_streaming R204). -/
def Obligations.FinalBlocks : Prop :=
  ∀ (n : PassCount) (w : Width) (c : DWord) (carry : List Byte), carry.length ≤ 127 →
    let r := carry.length
    let msg := carry ++ padBytes r ++ tailBytes n w c
    (r ≤ 117 → msg.length = 128) ∧
    (118 ≤ r → msg.length = 256 ∧ msg.take 128 = carry ++ [0x01#8] ++ List.replicate (127 - r) 0#8 ∧
      msg.drop 128 = List.replicate 118 0#8 ++ tailBytes n w c)

/-- 43_streaming R200 to R203: the ten bytes of the tail, VERSION being 1. -/
def Obligations.TailLayout : Prop :=
  ∀ (n : PassCount) (w : Width) (c : DWord),
    (tailBytes n w c).length = 10 ∧
    (tailBytes n w c)[0]? =
      some (BitVec.ofNat 8 (((w.bits &&& 0x3) <<< 6) ||| ((n.toNat &&& 0x7) <<< 3) ||| (1 &&& 0x7))) ∧
    (tailBytes n w c)[0]? = some (match n with | .three => 0x19#8 | .four => 0x21#8 | .five => 0x29#8) ∧
    (tailBytes n w c)[1]? = some (BitVec.ofNat 8 ((w.bits >>> 2) &&& 0xFF)) ∧
    (tailBytes n w c)[1]? =
      some (match w with | .w128 => 0x20#8 | .w160 => 0x28#8 | .w192 => 0x30#8 | .w224 => 0x38#8 | .w256 => 0x40#8) ∧
    (∀ j, j < 8 → (tailBytes n w c)[2 + j]? = some (c.extractLsb' (8 * j) 8)) ∧
    version = 1

/-- 43_streaming R211: the digest's length, and its byte 4j + k. -/
def Obligations.DigestBytes : Prop :=
  ∀ (w : Width) (V : Vector Word 8),
    (unpack (fold w V)).length = w.bits / 8 ∧
    ∀ j k, j < w.bits / 32 → k < 4 →
      ∃ d, (fold w V)[j]? = some d ∧ (unpack (fold w V))[4 * j + k]? = some (d.extractLsb' (8 * k) 8)

/-- The fold formulas of 43_streaming R206 to R210, said with bit fields instead of masks, shifts and rotations: each word
of the digest is a word of V plus fields of the words that are folded away, side by side. -/
def Obligations.FoldAddsBitFields : Prop :=
  ∀ V : Vector Word 8,
    let fld (j lo len : Nat) : BitVec len := (V.toList.getD j 0).extractLsb' lo len
    fold .w256 V = V.toList ∧
    fold .w224 V =
      [V[0] + (fld 7 27 5).setWidth 32, V[1] + (fld 7 22 5).setWidth 32, V[2] + (fld 7 18 4).setWidth 32,
       V[3] + (fld 7 13 5).setWidth 32, V[4] + (fld 7 9 4).setWidth 32, V[5] + (fld 7 4 5).setWidth 32,
       V[6] + (fld 7 0 4).setWidth 32] ∧
    fold .w192 V =
      [V[0] + (fld 7 0 5 ++ fld 6 26 6).setWidth 32, V[1] + (fld 7 5 5 ++ fld 6 0 5).setWidth 32,
       V[2] + (fld 7 10 6 ++ fld 6 5 5).setWidth 32, V[3] + (fld 7 16 5 ++ fld 6 10 6).setWidth 32,
       V[4] + (fld 7 21 5 ++ fld 6 16 5).setWidth 32, V[5] + (fld 7 26 6 ++ fld 6 21 5).setWidth 32] ∧
    fold .w160 V =
      [V[0] + (fld 7 0 6 ++ fld 6 25 7 ++ fld 5 19 6).setWidth 32,
       V[1] + (fld 7 6 6 ++ fld 6 0 6 ++ fld 5 25 7).setWidth 32,
       V[2] + (fld 7 12 7 ++ fld 6 6 6 ++ fld 5 0 6).setWidth 32,
       V[3] + (fld 7 19 6 ++ fld 6 12 7 ++ fld 5 6 6).setWidth 32,
       V[4] + (fld 7 25 7 ++ fld 6 19 6 ++ fld 5 12 7).setWidth 32] ∧
    fold .w128 V =
      [V[0] + (fld 7 0 8 ++ fld 6 24 8 ++ fld 5 16 8 ++ fld 4 8 8).setWidth 32,
       V[1] + (fld 7 8 8 ++ fld 6 0 8 ++ fld 5 24 8 ++ fld 4 16 8).setWidth 32,
       V[2] + (fld 7 16 8 ++ fld 6 8 8 ++ fld 5 0 8 ++ fld 4 24 8).setWidth 32,
       V[3] + (fld 7 24 8 ++ fld 6 16 8 ++ fld 5 8 8 ++ fld 4 0 8).setWidth 32]

/-! ## Word packer, round functions, compression -/

/-- The inverse laws, the spec's own inference in 40_word_packer R103: PACK and UNPACK are inverse, and PACK of a
concatenation is the concatenation. -/
def Obligations.PackAndUnpackInvert : Prop :=
  (∀ s : List Byte, s.length % 4 = 0 → ∃ W, pack s = .ok W ∧ unpack W = s) ∧
  (∀ W : List Word, pack (unpack W) = .ok W) ∧
  (∀ s t : List Byte, s.length % 4 = 0 →
    (t.length % 4 = 0 → ∃ A B, pack s = .ok A ∧ pack t = .ok B ∧ pack (s ++ t) = .ok (A ++ B)) ∧
    (t.length % 4 ≠ 0 → pack t = .error .packing ∧ pack (s ++ t) = .error .packing))

/-- The words PACK makes of bytes and the bytes UNPACK makes of words, one by one (40_word_packer R100 to R102). -/
def Obligations.PackedWordsAndBytes : Prop :=
  (∀ s : List Byte, s.length % 4 ≠ 0 → pack s = .error .packing) ∧
  (∀ s : List Byte, s.length % 4 = 0 → ∃ W, pack s = .ok W ∧ W.length = s.length / 4 ∧
    ∀ j, j < s.length / 4 → ∃ b0 b1 b2 b3 w : _,
      s[4 * j]? = some b0 ∧ s[4 * j + 1]? = some b1 ∧ s[4 * j + 2]? = some b2 ∧ s[4 * j + 3]? = some b3 ∧
      W[j]? = some w ∧ w = b3 ++ b2 ++ b1 ++ b0) ∧
  (∀ W : List Word, (unpack W).length = 4 * W.length ∧
    ∀ j k, j < W.length → k < 4 → ∃ w, W[j]? = some w ∧ (unpack W)[4 * j + k]? = some (w.extractLsb' (8 * k) 8))

/-- 41_round_functions R120: bit b of a round function's result depends on bit b of each argument only, and every bit by
the same Boolean function. -/
def Obligations.RoundFunctionsAreBitwise : Prop :=
  ∀ (k : PassIndex) (x y : Vector Word 7) (b c : Nat), b < 32 → c < 32 →
    (∀ j : Fin 7, x[j].getLsbD b = y[j].getLsbD c) → (roundFn k x).getLsbD b = (roundFn k y).getLsbD c

/-- The degrees of F1 to F5 over GF(2), the spec's own inference in 41_round_functions R126. -/
def Obligations.RoundFunctionDegrees : Prop :=
  degree .one = 2 ∧ degree .two = 3 ∧ degree .three = 3 ∧ degree .four = 3 ∧ degree .five = 4

/-- 41_round_functions R127: the rows of PHI are those of 1 ≤ p ≤ n, each is a permutation of x0..x6 other than the
identity, argument k of F_p is the selected input, and FPHI is what the table's last column writes out. -/
def Obligations.PermutedFunctionsWrittenOut : Prop :=
  (∀ (n : PassCount) (p : PassIndex), (∃ row, passRow? n p = some row ∧ row.passCount = n ∧ row.passIndex = p) ↔
    p.toNat ≤ n.toNat) ∧
  (∀ row : PassRow, (selection row).toList.Nodup ∧ selection row ≠ #v[0, 1, 2, 3, 4, 5, 6]) ∧
  (∀ (row : PassRow) (x : Vector Word 7),
    fphi row x = roundFn row.passIndex (Vector.ofFn fun k : Fin 7 => x[(selection row)[k]])) ∧
  (∀ x : Vector Word 7,
    fphi .n3p1 x = (x[2] &&& (x[4] ^^^ x[3])) ^^^ (x[6] &&& x[0]) ^^^ (x[5] &&& x[1]) ^^^ x[4] ∧
    fphi .n3p2 x = (x[5] &&& ((x[3] &&& ~~~x[0]) ^^^ (x[1] &&& x[2]) ^^^ x[4] ^^^ x[6])) ^^^ (x[1] &&& (x[3] ^^^ x[2])) ^^^ (x[0] &&& x[2]) ^^^ x[6] ∧
    fphi .n3p3 x = (x[3] &&& ((x[5] &&& x[4]) ^^^ x[6] ^^^ x[0])) ^^^ (x[5] &&& x[2]) ^^^ (x[4] &&& x[1]) ^^^ x[0] ∧
    fphi .n4p1 x = (x[3] &&& (x[0] ^^^ x[1])) ^^^ (x[5] &&& x[6]) ^^^ (x[4] &&& x[2]) ^^^ x[0] ∧
    fphi .n4p2 x = (x[1] &&& ((x[6] &&& ~~~x[0]) ^^^ (x[2] &&& x[5]) ^^^ x[3] ^^^ x[4])) ^^^ (x[2] &&& (x[6] ^^^ x[5])) ^^^ (x[0] &&& x[5]) ^^^ x[4] ∧
    fphi .n4p3 x = (x[6] &&& ((x[2] &&& x[0]) ^^^ x[1] ^^^ x[5])) ^^^ (x[2] &&& x[3]) ^^^ (x[0] &&& x[4]) ^^^ x[5] ∧
    fphi .n4p4 x = (x[0] &&& ((x[4] &&& ~~~x[2]) ^^^ (x[5] &&& ~~~x[6]) ^^^ x[1] ^^^ x[6] ^^^ x[3])) ^^^ (x[5] &&& ((x[1] &&& x[2]) ^^^ x[4] ^^^ x[6])) ^^^ (x[2] &&& x[6]) ^^^ x[3] ∧
    fphi .n5p1 x = (x[2] &&& (x[6] ^^^ x[1])) ^^^ (x[5] &&& x[4]) ^^^ (x[0] &&& x[3]) ^^^ x[6] ∧
    fphi .n5p2 x = (x[3] &&& ((x[4] &&& ~~~x[0]) ^^^ (x[1] &&& x[2]) ^^^ x[6] ^^^ x[5])) ^^^ (x[1] &&& (x[4] ^^^ x[2])) ^^^ (x[0] &&& x[2]) ^^^ x[5] ∧
    fphi .n5p3 x = (x[4] &&& ((x[1] &&& x[3]) ^^^ x[2] ^^^ x[5])) ^^^ (x[1] &&& x[0]) ^^^ (x[3] &&& x[6]) ^^^ x[5] ∧
    fphi .n5p4 x = (x[3] &&& ((x[5] &&& ~~~x[0]) ^^^ (x[2] &&& ~~~x[1]) ^^^ x[4] ^^^ x[1] ^^^ x[6])) ^^^ (x[2] &&& ((x[4] &&& x[0]) ^^^ x[5] ^^^ x[1])) ^^^ (x[0] &&& x[1]) ^^^ x[6] ∧
    fphi .n5p5 x = (x[1] &&& ((x[3] &&& x[4] &&& x[6]) ^^^ ~~~x[5])) ^^^ (x[3] &&& x[0]) ^^^ (x[4] &&& x[5]) ^^^ (x[6] &&& x[2]))

/-- The word orders are permutations of the block's words, that of pass 1 sequential (42_compression R163). -/
def Obligations.WordOrdersArePermutations : Prop :=
  (∀ p : PassIndex, (stepIndices.map (wordOrder p)).Nodup) ∧ (∀ i : Fin 32, wordOrder .one i = i)

/-- IV and K are the first 136 words of the fraction of π, recomputed by Machin's formula (42_compression R162). -/
def Obligations.ConstantsAreWordsOfPi : Prop :=
  constantWords = (List.range 136).map (piWord (machinPi (32 * 136 + 64)))

/-- The inputs of a step are the working words rotated by i mod 8 (42_compression R165), and the word a step writes is x0 of
the next one (the spec's own inference there: "The word written at step i is x0 of step i+1"). -/
def Obligations.StepInputsRotate : Prop :=
  (∀ (i : Fin 32) (T : Vector Word 8) (j : Fin 8),
    (stepInputs i T)[j] = T[(⟨(j.val + 8 - i.val % 8) % 8, Nat.mod_lt _ (by decide)⟩ : Fin 8)]) ∧
  (∀ (row : PassRow) (i i' : Fin 32) (B : Vector Word 32) (T : Vector Word 8), i'.val = i.val + 1 →
    (stepInputs i' (stepWords row i B T))[0] = stepValue row i B T)

/-- 42_compression R166, with 41_round_functions R130: a step writes FF of its inputs to the word that supplied x7, and no
other word. -/
def Obligations.StepChangesOneWord : Prop :=
  ∀ (row : PassRow) (i : Fin 32) (B : Vector Word 32) (T : Vector Word 8) (j : Fin 8),
    let x := stepInputs i T
    (stepWords row i B T)[j] =
      if j.val = (7 + 8 - i.val % 8) % 8 then
        rotr (fphi row #v[x[0], x[1], x[2], x[3], x[4], x[5], x[6]]) 7 + rotr x[7] 11
          + B[wordOrder row.passIndex i] + roundConst row.passIndex i
      else T[j]

/-- 42_compression R167: the passes are 1 to n, each of steps 0 to 31 in order, 32·n steps in all. -/
def Obligations.PassesRunInOrder : Prop :=
  ∀ n : PassCount,
    (stepSequence n).length = 32 * n.toNat ∧
    (∀ k, k < 32 * n.toNat → ∃ row i, (stepSequence n)[k]? = some (row, i) ∧ row.passCount = n ∧
      row.passIndex.toNat = k / 32 + 1 ∧ i.val = k % 32) ∧
    ∀ (B : Vector Word 32) (T : Vector Word 8),
      runPasses n B T = (stepSequence n).foldl (fun T x => stepWords x.1 x.2 B T) T

/-! ## Diagnostics -/

/-- 44_diagnostic R241: DIAG_F answers with F_k of the payload's seven words, in every phase; a word with its OP that is
none of the five is rejected. -/
def Obligations.DiagFReturnsRoundFunction : Prop :=
  let word (k : PassIndex) : Word := 0x10#8 ++ (0#21 ++ BitVec.ofNat 3 k.toNat)
  (∀ k, decode (word k) = .ok (.diagF k)) ∧
  (∀ (cmd : Word) (payload : List Byte) (s : State), EngineInv s → opField cmd = 0x10#8 → (∀ k, cmd ≠ word k) →
    RejectedWith (perform ⟨cmd, payload⟩ s) s .illegalCommand) ∧
  (∀ (k : PassIndex) (s : State), EngineInv s → s.payload.length = 28 →
    CompletesWith (exec (.diagF k) s) { s with lastErr := .none } (unpack [roundFn k (wordsAt 7 s.payload)]))

/-- 44_diagnostic R242: DIAG_STEP answers with the working words after one step; only the bytes of word (7 − i mod 8) mod 8
differ from the payload's first 32. A word with its OP that is none of its own, PASS above NPASS among them, is ILLEGAL_COMMAND. -/
def Obligations.DiagStepReturnsOneStep : Prop :=
  let word (n : PassCount) (p : PassIndex) (i : Fin 32) : Word :=
    0x11#8 ++ (0#11 ++ BitVec.ofFin (w := 5) i ++ 0#1 ++ BitVec.ofNat 3 n.toNat ++ 0#1 ++ BitVec.ofNat 3 p.toNat)
  (∀ (row : PassRow) (i : Fin 32),
    decode (word row.passCount row.passIndex i) = .ok (.diagStep row.passCount row.passIndex i)) ∧
  (∀ (cmd : Word) (payload : List Byte) (s : State), EngineInv s → opField cmd = 0x11#8 →
    (∀ (row : PassRow) (i : Fin 32), cmd ≠ word row.passCount row.passIndex i) →
    RejectedWith (perform ⟨cmd, payload⟩ s) s .illegalCommand) ∧
  (∀ (row : PassRow) (i : Fin 32) (s : State), EngineInv s → s.payload.length = 160 →
    let response := unpack (stepWords row i (wordsAt 32 (s.payload.drop 32)) (wordsAt 8 (s.payload.take 32))).toList
    CompletesWith (exec (.diagStep row.passCount row.passIndex i) s) { s with lastErr := .none } response ∧
    ∀ b, b < 32 → b / 4 ≠ (7 + 8 - i.val % 8) % 8 → response[b]? = s.payload[b]?)

/-- A DIAG_STEP whose PASS is above its NPASS, which no word decodes to, is rejected whatever its payload: the model's
meaning of the one ill-formed term of its syntax (log 11). -/
def Obligations.IllFormedStepRejected : Prop :=
  (∀ (n : PassCount) (p : PassIndex) (i : Fin 32) (s : State), EngineInv s → n.toNat < p.toNat →
    RejectedWith (exec (.diagStep n p i) s) s .illegalCommand) ∧
  (∀ (cmd : Word) (n : PassCount) (p : PassIndex) (i : Fin 32), decode cmd = .ok (.diagStep n p i) →
    p.toNat ≤ n.toNat)

/-- 44_diagnostic R243: DIAG_COMPRESS answers with COMPRESS of the payload's accumulator and block: the working words after
the n passes, added to the accumulator. A word with its OP that is none of the three is rejected. -/
def Obligations.DiagCompressReturnsCompression : Prop :=
  let word (n : PassCount) : Word := 0x12#8 ++ (0#21 ++ BitVec.ofNat 3 n.toNat)
  (∀ n, decode (word n) = .ok (.diagCompress n)) ∧
  (∀ (cmd : Word) (payload : List Byte) (s : State), EngineInv s → opField cmd = 0x12#8 → (∀ n, cmd ≠ word n) →
    RejectedWith (perform ⟨cmd, payload⟩ s) s .illegalCommand) ∧
  (∀ (n : PassCount) (s : State), EngineInv s → s.payload.length = 160 →
    let A := wordsAt 8 (s.payload.take 32)
    let B := wordsAt 32 (s.payload.drop 32)
    CompletesWith (exec (.diagCompress n) s) { s with lastErr := .none } (unpack (compress n A B).toList) ∧
    ∀ j : Fin 8, (compress n A B)[j] = A[j] + (runPasses n B A)[j])

/-- 44_diagnostic R244: DIAG_FOLD answers with the fold of the payload's eight words, w/8 bytes; a word with its OP that is
none of the five is rejected. -/
def Obligations.DiagFoldReturnsFold : Prop :=
  let word (w : Width) : Word := 0x13#8 ++ (BitVec.ofNat 16 w.bits ++ 0#8)
  (∀ w, decode (word w) = .ok (.diagFold w)) ∧
  (∀ (cmd : Word) (payload : List Byte) (s : State), EngineInv s → opField cmd = 0x13#8 → (∀ w, cmd ≠ word w) →
    RejectedWith (perform ⟨cmd, payload⟩ s) s .illegalCommand) ∧
  (∀ (w : Width) (s : State), EngineInv s → s.payload.length = 32 →
    CompletesWith (exec (.diagFold w) s) { s with lastErr := .none } (unpack (fold w (wordsAt 8 s.payload))) ∧
    (unpack (fold w (wordsAt 8 s.payload))).length = w.bits / 8)

/-- 44_diagnostic R240: the diagnostic commands succeed in every phase on a payload of their length; they change nothing
but LAST_ERR (and ERR_STICKY when rejected) and give an answer; their only error is ILLEGAL_COMMAND; and their outcome and
response depend on the command and the payload alone. -/
def Obligations.DiagnosticsLeaveTheComputation : Prop :=
  ∀ i : Instr, isDiagnostic i = true →
    (∀ s : State, EngineInv s → i.wellFormed = true → s.payload.length = payloadLength i →
      ∃ t, exec i s = .next t ∧ t.lastErr = .none) ∧
    (∀ s t : State, exec i s = .next t →
      (∃ st response, t = answered { s with lastErr := t.lastErr, errSticky := t.errSticky } st response) ∧
      ((t.lastErr = .none ∧ t.errSticky = s.errSticky) ∨ (t.lastErr = .illegalCommand ∧ t.errSticky = true))) ∧
    (∀ s1 s2 t1 t2 : State, s1.payload = s2.payload → exec i s1 = .next t1 → exec i s2 = .next t2 →
      t1.lastErr = t2.lastErr ∧
      ∃ st1 st2 response, t1.answers = s1.answers ++ [.done st1 response] ∧
        t2.answers = s2.answers ++ [.done st2 response])

/-- The spec's own inference in 44_diagnostic R245 ("the digest equals the response of DIAG_FOLD w"): the digest is DIAG_FOLD's answer to the final accumulator, and the compression of an ABSORB's block
is DIAG_COMPRESS's answer to the accumulator and the block. `s2` is any state the diagnostic command is run in. -/
def Obligations.DiagnosticsAgreeWithTheHashPath : Prop :=
  (∀ (s s2 : State) (n : PassCount) (w : Width) (a V : Vector Word 8) (c : DWord) (carry : List Byte),
    EngineInv s → s.phase = .active → s.cfgPasses = some n → s.cfgWidth = some w → s.acc = some a →
    s.bitcnt = some c → s.carry = some carry → s.payload = [] →
    V = compressAll n ((paddedMessage n w c carry).length / 128) a (paddedMessage n w c carry) →
    EngineInv s2 → s2.payload = unpack V.toList →
    ∃ t st t2 st2 digest, exec .finalize s = .next t ∧ t.answers = s.answers ++ [.done st digest] ∧
      exec (.diagFold w) s2 = .next t2 ∧ t2.answers = s2.answers ++ [.done st2 digest]) ∧
  (∀ (s s2 : State) (n : PassCount) (a : Vector Word 8) (carry : List Byte) (len : BitVec 24),
    EngineInv s → s.phase = .active → s.cfgPasses = some n → s.acc = some a → s.carry = some carry →
    s.payload.length = len.toNat → (carry ++ s.payload).length = 128 →
    EngineInv s2 → s2.payload = unpack a.toList ++ (carry ++ s.payload) →
    ∃ t a' t2 st2, exec (.absorb len) s = .next t ∧ t.acc = some a' ∧ t.carry = some [] ∧
      exec (.diagCompress n) s2 = .next t2 ∧ t2.answers = s2.answers ++ [.done st2 (unpack a'.toList)])

/-! ## The whole machine -/

/-- INIT, the message in ABSORBs of any chunks, FINALIZE: the last answer is the digest of the whole message, a function of
(n, w, message) alone that pads the message first and compresses its blocks (43_streaming R194, R195, R212, R213;
30_encoding R88). -/
def Obligations.HashComputesTheMessageDigest : Prop :=
  ∀ (s : State) (n : PassCount) (w : Width) (chunks : List (List Byte)) (rest : List Request),
    StateInv s → (∀ c ∈ chunks, c.length ≤ maxAbsorb) → s.inbox = hashRequests n w chunks ++ rest →
    ∃ t, Host.Core.run core (chunks.length + 2) s = .next t ∧ t.phase = .finalized ∧ t.inbox = rest ∧
      t.answers.getLast? =
        some (.done (statusWord .finalized .none s.errSticky n.toNat w.bits) (messageDigest n w chunks.flatten))

/-- The spec's own inference in 43_streaming R212 ("[derived: from rules R191–R193 ...]"): at every command boundary BITCNT, CARRY and ACC depend on the concatenation absorbed so far only;
and any two splits of a message give the same digest. -/
def Obligations.ChunkingInvariance : Prop :=
  (∀ (s : State) (n : PassCount) (w : Width) (chunks : List (List Byte)) (rest : List Request),
    StateInv s → (∀ c ∈ chunks, c.length ≤ maxAbsorb) →
    s.inbox = initRequest n w :: (chunks.map absorbRequest ++ rest) →
    let msg := chunks.flatten
    ∃ t, Host.Core.run core (chunks.length + 1) s = .next t ∧ t.phase = .active ∧ t.inbox = rest ∧
      t.bitcnt = some (BitVec.ofNat 64 (8 * msg.length)) ∧
      t.carry = some (msg.drop (128 * (msg.length / 128))) ∧
      t.acc = some (compressAll n (msg.length / 128) iv msg)) ∧
  (∀ (s1 s2 : State) (n : PassCount) (w : Width) (c1 c2 : List (List Byte)),
    StateInv s1 → StateInv s2 → (∀ c ∈ c1, c.length ≤ maxAbsorb) → (∀ c ∈ c2, c.length ≤ maxAbsorb) →
    c1.flatten = c2.flatten → s1.inbox = hashRequests n w c1 → s2.inbox = hashRequests n w c2 →
    ∃ t1 t2 st1 st2 digest, Host.Core.run core (c1.length + 2) s1 = .next t1 ∧
      Host.Core.run core (c2.length + 2) s2 = .next t2 ∧
      t1.answers.getLast? = some (.done st1 digest) ∧ t2.answers.getLast? = some (.done st2 digest))

/-- The spec's own inference in 60_exceptions R278 ("The only route from ACC to a response is an accepted FINALIZE"): two
states that differ in ACC, BITCNT, CARRY, BLK and T alone give the host the same answers, and
still differ in those alone, after every step but an accepted FINALIZE; and a rejected FINALIZE emits nothing. -/
def Obligations.NoPartialDigest : Prop :=
  (∀ s1 s2 t1 t2 : State, StateInv s1 → StateInv s2 → visible s1 = visible s2 →
    ¬ (s1.phase = .active ∧ s1.inbox.head? = some finalizeRequest) →
    step s1 = .next t1 → step s2 = .next t2 → visible t1 = visible t2) ∧
  (∀ s t : State, exec .finalize s = .next t → t.lastErr ≠ .none → ∃ st, t.answers = s.answers ++ [.done st []])

/-- Engines are independent: a step of one leaves every other as it was and is a step of its own state alone, and a request
to one port reaches its engine only (20_memory R60, 60_exceptions R276). How requests are delivered is the model's form of
the OPEN parameter HOST_PORT_MAP (log 8). -/
def Obligations.EnginesAreIndependent : Prop :=
  (∀ (k : Nat) (es es' : List State), stepEngine k es = .next es' →
    es'.length = es.length ∧ (∀ j, j ≠ k → es'[j]? = es[j]?) ∧
    (∀ s, es[k]? = some s → ∃ s', step s = .next s' ∧ es'[k]? = some s')) ∧
  (∀ (k : Nat) (es : List State), (∀ s ∈ es, StateInv s) →
    ∃ es', stepEngine k es = .next es' ∧ ∀ s ∈ es', StateInv s) ∧
  (∀ (map : PortMap) (port k : Nat) (r : Request) (es : List State), map.engineOf port = some k →
    (map.sharedReset = false ∨ ∀ abandoned, r ≠ .reset abandoned) →
    ∀ j, (deliver map port r es)[j]? = if j = k then es[j]?.map (issue r) else es[j]?)

/-- HASH's canonical split: chunks of 16 777 215 bytes and a last shorter one, none of an empty message, that together are
the message (30_encoding R88). -/
def Obligations.HashSplitsTheMessage : Prop :=
  ∀ data : List Byte,
    let chunks := chunksOf maxAbsorb data.length data
    chunks.flatten = data ∧ (∀ c ∈ chunks, 1 ≤ c.length ∧ c.length ≤ 16777215) ∧
    (∀ k, k + 1 < chunks.length → ∃ c, chunks[k]? = some c ∧ c.length = 16777215) ∧
    (data = [] → chunks = [])

/-- A line of assembly with legal operands stands for the request of its command, and HASH for its sequence
(30_encoding R87, R88). -/
def Obligations.AssembledLinesAreTheCommands : Prop :=
  (∀ (n : PassCount) (w : Width), assemble (.init n.toNat w.bits) = some [initRequest n w]) ∧
  (∀ data : List Byte, data.length ≤ maxAbsorb → assemble (.absorb data) = some [absorbRequest data]) ∧
  assemble .finalize = some [finalizeRequest] ∧ assemble .readStatus = some [.readStatus] ∧
  (∀ (k : PassIndex) (x : List Word), x.length = 7 →
    assemble (.diagF k.toNat x) = some [request (.diagF k) (unpack x)]) ∧
  (∀ (n : PassCount) (p : PassIndex) (i : Fin 32) (t b : List Word), t.length = 8 → b.length = 32 →
    assemble (.diagStep n.toNat p.toNat i.val t b) = some [request (.diagStep n p i) (unpack (t ++ b))]) ∧
  (∀ (n : PassCount) (a b : List Word), a.length = 8 → b.length = 32 →
    assemble (.diagCompress n.toNat a b) = some [request (.diagCompress n) (unpack (a ++ b))]) ∧
  (∀ (w : Width) (v : List Word), v.length = 8 →
    assemble (.diagFold w.bits v) = some [request (.diagFold w) (unpack v)]) ∧
  (∀ (n : PassCount) (w : Width) (data : List Byte),
    assemble (.hash n.toNat w.bits data) = some (hashCommand n w data))
end

