-- ==== Sys2Proof/Laws/Encode.lean ====
section
/-! SUPPORT. The two halves of an encoded command word, and what the readers of numbered fields answer. -/

namespace Sys2Proof

theorem encode_getLsbD (i : Instr) (k : Nat) :
    (encode i).getLsbD k = if k < 24 then (argument i).getLsbD k else (opcode i).getLsbD (k - 24) := by
  show (opcode i ++ argument i).getLsbD k = _
  exact BitVec.getLsbD_append

/-- A field of ARG is read back from the command word. -/
theorem argument_field (i : Instr) {lo len : Nat} (h : lo + len ≤ 24) :
    (encode i).extractLsb' lo len = (argument i).extractLsb' lo len := by
  ext k hk
  simp only [BitVec.getElem_extractLsb', encode_getLsbD, if_pos (by omega : lo + k < 24)]

@[simp] theorem PassCount.ofNat?_toNat (n : PassCount) : PassCount.ofNat? n.toNat = some n := by cases n <;> rfl

@[simp] theorem PassIndex.ofNat?_toNat (p : PassIndex) : PassIndex.ofNat? p.toNat = some p := by cases p <;> rfl

@[simp] theorem Width.ofNat?_bits (w : Width) : Width.ofNat? w.bits = some w := by cases w <;> rfl

theorem PassCount.ofNat?_eq_some {v : Nat} {n : PassCount} : PassCount.ofNat? v = some n ↔ v = n.toNat := by
  constructor
  · intro h
    unfold PassCount.ofNat? at h
    split_ifs at h <;> cases h <;> assumption
  · rintro rfl; exact PassCount.ofNat?_toNat n

theorem PassIndex.ofNat?_eq_some {v : Nat} {p : PassIndex} : PassIndex.ofNat? v = some p ↔ v = p.toNat := by
  constructor
  · intro h
    unfold PassIndex.ofNat? at h
    split_ifs at h <;> cases h <;> assumption
  · rintro rfl; exact PassIndex.ofNat?_toNat p

theorem Width.ofNat?_eq_some {v : Nat} {w : Width} : Width.ofNat? v = some w ↔ v = w.bits := by
  constructor
  · intro h
    unfold Width.ofNat? at h
    split_ifs at h <;> cases h <;> assumption
  · rintro rfl; exact Width.ofNat?_bits w

theorem PassCount.ofNat?_eq_none {v : Nat} : PassCount.ofNat? v = none ↔ v ∉ [3, 4, 5] := by
  unfold PassCount.ofNat?
  split_ifs <;> simp_all

theorem PassIndex.ofNat?_eq_none {v : Nat} : PassIndex.ofNat? v = none ↔ v ∉ [1, 2, 3, 4, 5] := by
  unfold PassIndex.ofNat?
  split_ifs <;> simp_all

theorem Width.ofNat?_eq_none {v : Nat} : Width.ofNat? v = none ↔ v ∉ [128, 160, 192, 224, 256] := by
  unfold Width.ofNat?
  split_ifs <;> simp_all

end Sys2Proof
end

