-- ==== Sys2Proof/Laws/State.lean ====
section
/-! SUPPORT. For each named update of the state, the value of each field after it, so that no later proof unfolds a record
update. -/

namespace Sys2Proof.Machine

@[simp] theorem initialised_phase (n : PassCount) (w : Width) (s : State) : (initialised n w s).phase = .active := rfl
@[simp] theorem initialised_cfgPasses (n : PassCount) (w : Width) (s : State) : (initialised n w s).cfgPasses = some n := rfl
@[simp] theorem initialised_cfgWidth (n : PassCount) (w : Width) (s : State) : (initialised n w s).cfgWidth = some w := rfl
@[simp] theorem initialised_acc (n : PassCount) (w : Width) (s : State) : (initialised n w s).acc = some iv := rfl
@[simp] theorem initialised_bitcnt (n : PassCount) (w : Width) (s : State) : (initialised n w s).bitcnt = some 0#64 := rfl
@[simp] theorem initialised_carry (n : PassCount) (w : Width) (s : State) : (initialised n w s).carry = some [] := rfl
@[simp] theorem initialised_blk (n : PassCount) (w : Width) (s : State) : (initialised n w s).blk = none := rfl
@[simp] theorem initialised_t (n : PassCount) (w : Width) (s : State) : (initialised n w s).t = none := rfl
@[simp] theorem initialised_lastErr (n : PassCount) (w : Width) (s : State) : (initialised n w s).lastErr = s.lastErr := rfl
@[simp] theorem initialised_errSticky (n : PassCount) (w : Width) (s : State) : (initialised n w s).errSticky = s.errSticky := rfl
@[simp] theorem initialised_inbox (n : PassCount) (w : Width) (s : State) : (initialised n w s).inbox = s.inbox := rfl
@[simp] theorem initialised_payload (n : PassCount) (w : Width) (s : State) : (initialised n w s).payload = s.payload := rfl
@[simp] theorem initialised_answers (n : PassCount) (w : Width) (s : State) : (initialised n w s).answers = s.answers := rfl
@[simp] theorem cleared_phase (s : State) : (cleared s).phase = .finalized := rfl
@[simp] theorem cleared_cfgPasses (s : State) : (cleared s).cfgPasses = s.cfgPasses := rfl
@[simp] theorem cleared_cfgWidth (s : State) : (cleared s).cfgWidth = s.cfgWidth := rfl
@[simp] theorem cleared_acc (s : State) : (cleared s).acc = none := rfl
@[simp] theorem cleared_bitcnt (s : State) : (cleared s).bitcnt = none := rfl
@[simp] theorem cleared_carry (s : State) : (cleared s).carry = none := rfl
@[simp] theorem cleared_blk (s : State) : (cleared s).blk = none := rfl
@[simp] theorem cleared_t (s : State) : (cleared s).t = none := rfl
@[simp] theorem cleared_lastErr (s : State) : (cleared s).lastErr = s.lastErr := rfl
@[simp] theorem cleared_errSticky (s : State) : (cleared s).errSticky = s.errSticky := rfl
@[simp] theorem cleared_inbox (s : State) : (cleared s).inbox = s.inbox := rfl
@[simp] theorem cleared_payload (s : State) : (cleared s).payload = s.payload := rfl
@[simp] theorem cleared_answers (s : State) : (cleared s).answers = s.answers := rfl
@[simp] theorem resetEngine_phase (s : State) : (resetEngine s).phase = .unconfigured := rfl
@[simp] theorem resetEngine_cfgPasses (s : State) : (resetEngine s).cfgPasses = none := rfl
@[simp] theorem resetEngine_cfgWidth (s : State) : (resetEngine s).cfgWidth = none := rfl
@[simp] theorem resetEngine_acc (s : State) : (resetEngine s).acc = none := rfl
@[simp] theorem resetEngine_bitcnt (s : State) : (resetEngine s).bitcnt = none := rfl
@[simp] theorem resetEngine_carry (s : State) : (resetEngine s).carry = none := rfl
@[simp] theorem resetEngine_blk (s : State) : (resetEngine s).blk = none := rfl
@[simp] theorem resetEngine_t (s : State) : (resetEngine s).t = none := rfl
@[simp] theorem resetEngine_lastErr (s : State) : (resetEngine s).lastErr = .none := rfl
@[simp] theorem resetEngine_errSticky (s : State) : (resetEngine s).errSticky = false := rfl
@[simp] theorem resetEngine_inbox (s : State) : (resetEngine s).inbox = s.inbox := rfl
@[simp] theorem resetEngine_payload (s : State) : (resetEngine s).payload = [] := rfl
@[simp] theorem resetEngine_answers (s : State) : (resetEngine s).answers = s.answers := rfl
@[simp] theorem placeFirst_phase (r : Request) (s : State) : (placeFirst r s).phase = s.phase := rfl
@[simp] theorem placeFirst_cfgPasses (r : Request) (s : State) : (placeFirst r s).cfgPasses = s.cfgPasses := rfl
@[simp] theorem placeFirst_cfgWidth (r : Request) (s : State) : (placeFirst r s).cfgWidth = s.cfgWidth := rfl
@[simp] theorem placeFirst_acc (r : Request) (s : State) : (placeFirst r s).acc = s.acc := rfl
@[simp] theorem placeFirst_bitcnt (r : Request) (s : State) : (placeFirst r s).bitcnt = s.bitcnt := rfl
@[simp] theorem placeFirst_carry (r : Request) (s : State) : (placeFirst r s).carry = s.carry := rfl
@[simp] theorem placeFirst_blk (r : Request) (s : State) : (placeFirst r s).blk = s.blk := rfl
@[simp] theorem placeFirst_t (r : Request) (s : State) : (placeFirst r s).t = s.t := rfl
@[simp] theorem placeFirst_lastErr (r : Request) (s : State) : (placeFirst r s).lastErr = s.lastErr := rfl
@[simp] theorem placeFirst_errSticky (r : Request) (s : State) : (placeFirst r s).errSticky = s.errSticky := rfl
@[simp] theorem placeFirst_inbox (r : Request) (s : State) : (placeFirst r s).inbox = r :: s.inbox := rfl
@[simp] theorem placeFirst_payload (r : Request) (s : State) : (placeFirst r s).payload = s.payload := rfl
@[simp] theorem placeFirst_answers (r : Request) (s : State) : (placeFirst r s).answers = s.answers := rfl
@[simp] theorem issue_phase (r : Request) (s : State) : (issue r s).phase = s.phase := rfl
@[simp] theorem issue_cfgPasses (r : Request) (s : State) : (issue r s).cfgPasses = s.cfgPasses := rfl
@[simp] theorem issue_cfgWidth (r : Request) (s : State) : (issue r s).cfgWidth = s.cfgWidth := rfl
@[simp] theorem issue_acc (r : Request) (s : State) : (issue r s).acc = s.acc := rfl
@[simp] theorem issue_bitcnt (r : Request) (s : State) : (issue r s).bitcnt = s.bitcnt := rfl
@[simp] theorem issue_carry (r : Request) (s : State) : (issue r s).carry = s.carry := rfl
@[simp] theorem issue_blk (r : Request) (s : State) : (issue r s).blk = s.blk := rfl
@[simp] theorem issue_t (r : Request) (s : State) : (issue r s).t = s.t := rfl
@[simp] theorem issue_lastErr (r : Request) (s : State) : (issue r s).lastErr = s.lastErr := rfl
@[simp] theorem issue_errSticky (r : Request) (s : State) : (issue r s).errSticky = s.errSticky := rfl
@[simp] theorem issue_inbox (r : Request) (s : State) : (issue r s).inbox = s.inbox ++ [r] := rfl
@[simp] theorem issue_payload (r : Request) (s : State) : (issue r s).payload = s.payload := rfl
@[simp] theorem issue_answers (r : Request) (s : State) : (issue r s).answers = s.answers := rfl
@[simp] theorem answered_phase (s : State) (st : Word) (response : List Byte) : (answered s st response).phase = s.phase := rfl
@[simp] theorem answered_cfgPasses (s : State) (st : Word) (response : List Byte) : (answered s st response).cfgPasses = s.cfgPasses := rfl
@[simp] theorem answered_cfgWidth (s : State) (st : Word) (response : List Byte) : (answered s st response).cfgWidth = s.cfgWidth := rfl
@[simp] theorem answered_acc (s : State) (st : Word) (response : List Byte) : (answered s st response).acc = s.acc := rfl
@[simp] theorem answered_bitcnt (s : State) (st : Word) (response : List Byte) : (answered s st response).bitcnt = s.bitcnt := rfl
@[simp] theorem answered_carry (s : State) (st : Word) (response : List Byte) : (answered s st response).carry = s.carry := rfl
@[simp] theorem answered_blk (s : State) (st : Word) (response : List Byte) : (answered s st response).blk = s.blk := rfl
@[simp] theorem answered_t (s : State) (st : Word) (response : List Byte) : (answered s st response).t = s.t := rfl
@[simp] theorem answered_lastErr (s : State) (st : Word) (response : List Byte) : (answered s st response).lastErr = s.lastErr := rfl
@[simp] theorem answered_errSticky (s : State) (st : Word) (response : List Byte) : (answered s st response).errSticky = s.errSticky := rfl
@[simp] theorem answered_inbox (s : State) (st : Word) (response : List Byte) : (answered s st response).inbox = s.inbox := rfl
@[simp] theorem answered_payload (s : State) (st : Word) (response : List Byte) : (answered s st response).payload = [] := rfl
@[simp] theorem answered_answers (s : State) (st : Word) (response : List Byte) : (answered s st response).answers = s.answers ++ [.done st response] := rfl
@[simp] theorem visible_phase (s : State) : (visible s).phase = s.phase := rfl
@[simp] theorem visible_cfgPasses (s : State) : (visible s).cfgPasses = s.cfgPasses := rfl
@[simp] theorem visible_cfgWidth (s : State) : (visible s).cfgWidth = s.cfgWidth := rfl
@[simp] theorem visible_acc (s : State) : (visible s).acc = none := rfl
@[simp] theorem visible_bitcnt (s : State) : (visible s).bitcnt = none := rfl
@[simp] theorem visible_carry (s : State) : (visible s).carry = none := rfl
@[simp] theorem visible_blk (s : State) : (visible s).blk = none := rfl
@[simp] theorem visible_t (s : State) : (visible s).t = none := rfl
@[simp] theorem visible_lastErr (s : State) : (visible s).lastErr = s.lastErr := rfl
@[simp] theorem visible_errSticky (s : State) : (visible s).errSticky = s.errSticky := rfl
@[simp] theorem visible_inbox (s : State) : (visible s).inbox = s.inbox := rfl
@[simp] theorem visible_payload (s : State) : (visible s).payload = s.payload := rfl
@[simp] theorem visible_answers (s : State) : (visible s).answers = s.answers := rfl

end Sys2Proof.Machine
end

