-- ==== Sys2Proof/Laws/Ops.lean ====
section
/-! SUPPORT. For each shared operation, once, everything it can do. -/

namespace Sys2Proof.Machine

/-! ## Sequencing -/

@[simp] theorem withValue_ok {α : Type} (v : α) (k : α → Result) : withValue (.ok v) k = k v := rfl

@[simp] theorem withValue_error {α : Type} (f : Fault) (k : α → Result) : withValue (.error f) k = .fault f := rfl

@[simp] theorem andThen_next (s : State) (k : State → Result) : andThen (.next s) k = k s := rfl

@[simp] theorem readElement_some {α : Type} (e : Element) (v : α) : readElement e (some v) = .ok v := rfl

theorem withValue_eq_next {α : Type} {r : Except Fault α} {k : α → Result} {t : State} :
    withValue r k = .next t ↔ ∃ v, r = .ok v ∧ k v = .next t := by
  cases r <;> simp [withValue]

theorem andThen_eq_next {r : Result} {k : State → Result} {t : State} :
    andThen r k = .next t ↔ ∃ s, r = .next s ∧ k s = .next t := by
  cases r <;> simp [andThen]

theorem readElement_eq_ok {α : Type} {e : Element} {v : Option α} {x : α} :
    readElement e v = .ok x ↔ v = some x := by
  cases v <;> simp [readElement]

/-- In ACTIVE every element a command reads holds a value. -/
theorem EngineInv.active {s : State} (h : EngineInv s) (hp : s.phase = .active) :
    ∃ n w a c carry, s.cfgPasses = some n ∧ s.cfgWidth = some w ∧ s.acc = some a ∧ s.bitcnt = some c ∧
      s.carry = some carry ∧ carry.length < 128 ∧ carry.length = (c >>> 3).toNat % 128 := by
  have := h.1
  unfold PhaseInv at this
  rwa [hp] at this

/-! ## STATUS -/

/-- The configuration is readable wherever STATUS shows it. -/
def Readable (s : State) : Prop :=
  s.phase = .unconfigured ∨ ∃ n w, s.cfgPasses = some n ∧ s.cfgWidth = some w

theorem EngineInv.readable {s : State} (h : EngineInv s) : Readable s := by
  obtain ⟨hp, -, -⟩ := h
  unfold PhaseInv at hp
  cases hph : s.phase with
  | unconfigured => exact .inl hph
  | active => rw [hph] at hp; obtain ⟨n, w, _, _, _, hn, hw, _⟩ := hp; exact .inr ⟨n, w, hn, hw⟩
  | finalized => rw [hph] at hp; obtain ⟨n, w, hn, hw, _⟩ := hp; exact .inr ⟨n, w, hn, hw⟩

/-- STATUS reads PHASE, LAST_ERR, ERR_STICKY and the configuration, and nothing else. -/
theorem statusOf_congr {s t : State} (h1 : s.phase = t.phase) (h2 : s.cfgPasses = t.cfgPasses)
    (h3 : s.cfgWidth = t.cfgWidth) (h4 : s.lastErr = t.lastErr) (h5 : s.errSticky = t.errSticky) :
    statusOf s = statusOf t := by
  simp only [statusOf, h1, h2, h3, h4, h5]

theorem statusOf_unconfigured {s : State} (h : s.phase = .unconfigured) :
    statusOf s = .ok (statusWord .unconfigured s.lastErr s.errSticky 0 0) := by
  simp [statusOf, h]

theorem statusOf_configured {s : State} {n : PassCount} {w : Width} (h : s.phase ≠ .unconfigured)
    (hn : s.cfgPasses = some n) (hw : s.cfgWidth = some w) :
    statusOf s = .ok (statusWord s.phase s.lastErr s.errSticky n.toNat w.bits) := by
  cases hp : s.phase <;> simp_all [statusOf]

theorem statusOf_readable {s : State} (h : Readable s) : ∃ st, statusOf s = .ok st := by
  by_cases hp : s.phase = .unconfigured
  · exact ⟨_, statusOf_unconfigured hp⟩
  · obtain h | ⟨n, w, hn, hw⟩ := h
    · exact absurd h hp
    · exact ⟨_, statusOf_configured hp hn hw⟩

/-! ## The end of a transaction -/

/-- An answered command leaves exactly the answered state. -/
theorem reply_eq_next {response : List Byte} {s t : State} :
    reply response s = .next t ↔ ∃ st, statusOf s = .ok st ∧ t = answered s st response := by
  simp only [reply, withValue_eq_next, answered, Host.Outcome.next.injEq, eq_comm (a := t)]

theorem reply_completes {s : State} (response : List Byte) (h : Readable s) :
    CompletesWith (reply response s) s response := by
  obtain ⟨st, hst⟩ := statusOf_readable h
  exact ⟨st, hst, reply_eq_next.2 ⟨st, hst, rfl⟩⟩

theorem succeed_completes {s : State} (response : List Byte) (h : Readable s) :
    CompletesWith (succeed response s) { s with lastErr := .none } response :=
  reply_completes response h

theorem reject_rejects {s : State} (e : ErrCode) (h : Readable s) : RejectedWith (reject e s) s e :=
  reply_completes [] h

theorem succeed_eq_next {response : List Byte} {s t : State} :
    succeed response s = .next t ↔
      ∃ st, statusOf { s with lastErr := .none } = .ok st ∧ t = answered { s with lastErr := .none } st response :=
  reply_eq_next

theorem reject_eq_next {e : ErrCode} {s t : State} :
    reject e s = .next t ↔
      ∃ st, statusOf { s with lastErr := e, errSticky := true } = .ok st ∧
        t = answered { s with lastErr := e, errSticky := true } st [] :=
  reply_eq_next

/-- The payload check either lets the command go on or rejects it. -/
theorem requirePayload_of_length {len : Nat} {s : State} {k : Result} (h : s.payload.length = len) :
    requirePayload len s k = k := by simp [requirePayload, h]

theorem requirePayload_of_ne {len : Nat} {s : State} {k : Result} (h : s.payload.length ≠ len) :
    requirePayload len s k = reject .illegalCommand s := by simp [requirePayload, h]

/-- The phase check either lets the command go on or rejects it. -/
theorem requireActive_of_active {s : State} {k : Result} (h : s.phase = .active) : requireActive s k = k := by
  simp [requireActive, h]

theorem requireActive_of_ne {s : State} {k : Result} (h : s.phase ≠ .active) :
    requireActive s k = reject .stateMisuse s := by simp [requireActive, h]

/-! ## The Word Packer -/

theorem packWords_eq_map : ∀ s : List Byte,
    packWords s = (List.range (s.length / 4)).map (wordAt s)
  | [] | [_] | [_, _] | [_, _, _] => by simp [packWords]
  | b0 :: b1 :: b2 :: b3 :: rest => by
    have hl : (b0 :: b1 :: b2 :: b3 :: rest).length / 4 = rest.length / 4 + 1 := by simp; omega
    rw [packWords, packWords_eq_map rest, hl, List.range_succ_eq_map, List.map_cons, List.map_map]
    congr 1

theorem packWords_length (s : List Byte) : (packWords s).length = s.length / 4 := by simp [packWords_eq_map]

theorem pack_of_length {s : List Byte} (h : s.length % 4 = 0) : pack s = .ok (packWords s) := by simp [pack, h]

theorem wordVector_of_length {k : Nat} {ws : List Word} (h : ws.length = k) :
    wordVector k ws = .ok ⟨⟨ws⟩, h⟩ := by simp [wordVector, h]

/-- A byte sequence of 4k bytes packs into its k words; PACKING is not reached. -/
theorem packVector_of_length {k : Nat} {s : List Byte} (h : s.length = 4 * k) :
    packVector k s = .ok (wordsAt k s) := by
  have hk : s.length / 4 = k := by omega
  have hl : (packWords s).length = k := by rw [packWords_length, hk]
  rw [packVector, pack_of_length (by omega)]
  simp only [wordVector_of_length hl, wordsAt]
  congr 3
  rw [packWords_eq_map, hk]

theorem packWords_append : ∀ (s t : List Byte), s.length % 4 = 0 → packWords (s ++ t) = packWords s ++ packWords t
  | [], t, _ => by simp [packWords]
  | [_], _, h | [_, _], _, h | [_, _, _], _, h => by simp at h
  | b0 :: b1 :: b2 :: b3 :: rest, t, h => by
    have hr : rest.length % 4 = 0 := by simp at h; omega
    simp [packWords, packWords_append rest t hr]

theorem packWords_eq_wordsAt {k : Nat} {s : List Byte} (h : s.length = 4 * k) :
    packWords s = (wordsAt k s).toList := by
  have hk : s.length / 4 = k := by omega
  rw [packWords_eq_map, hk]; rfl

/-- A payload of 160 bytes holds eight words and a block of 32. -/
theorem blockOperands_of_length {s : List Byte} (h : s.length = 160) :
    blockOperands s = .ok (wordsAt 8 (s.take 32), wordsAt 32 (s.drop 32)) := by
  have h1 : (s.take 32).length = 4 * 8 := by simp; omega
  have h2 : (s.drop 32).length = 4 * 32 := by simp; omega
  have hs : packWords s = packWords (s.take 32) ++ packWords (s.drop 32) := by
    rw [← packWords_append _ _ (by omega), List.take_append_drop]
  have l1 : (packWords (s.take 32)).length = 8 := by rw [packWords_length]; omega
  have l2 : (packWords (s.drop 32)).length = 32 := by rw [packWords_length]; omega
  have e1 : (packWords s).take 8 = packWords (s.take 32) := by rw [hs, List.take_left' l1]
  have e2 : (packWords s).drop 8 = packWords (s.drop 32) := by rw [hs, List.drop_left' l1]
  rw [blockOperands, pack_of_length (by omega)]
  simp only [e1, e2, wordVector_of_length l1, wordVector_of_length l2]
  simp only [packWords_eq_wordsAt h1, packWords_eq_wordsAt h2]
  rfl

theorem unpack_length (ws : List Word) : (unpack ws).length = 4 * ws.length := by
  induction ws with
  | nil => rfl
  | cons w ws ih => simp only [unpack, List.flatMap_cons, List.length_append] at *; simp [ih, unpackWord]; omega

/-- Byte k of word j, in the bytes of a word sequence. -/
theorem unpack_getElem? (ws : List Word) (j k : Nat) (hj : j < ws.length) (hk : k < 4) :
    (unpack ws)[4 * j + k]? = some (ws[j].extractLsb' (8 * k) 8) := by
  induction ws generalizing j with
  | nil => simp at hj
  | cons w ws ih =>
    have hu : unpack (w :: ws) = unpackWord w ++ unpack ws := by simp [unpack]
    cases j with
    | zero =>
      obtain rfl | rfl | rfl | rfl : k = 0 ∨ k = 1 ∨ k = 2 ∨ k = 3 := by omega
      all_goals simp [hu, unpackWord]
    | succ j =>
      rw [hu, List.getElem?_append_right (by simp [unpackWord]; omega)]
      have e : 4 * (j + 1) + k - (unpackWord w).length = 4 * j + k := by simp [unpackWord]; omega
      rw [e, ih j (by simpa using hj)]; rfl

/-- The number of words a fold gives. -/
theorem fold_length (w : Width) (V : Vector Word 8) : (fold w V).length = w.bits / 32 := by
  cases w <;> simp [fold, fold128, fold160, fold192, fold224, fold256, Width.bits]

/-! ## Compression -/

theorem loadBlock_of_length {bytes : List Byte} {s : State} (h : bytes.length = 128) :
    loadBlock bytes s = .next { s with blk := some (wordsAt 32 bytes) } := by
  rw [loadBlock, packVector_of_length (by omega)]; rfl

/-- With its elements holding values, a compression replaces ACC by COMPRESS of it and leaves T without a value. -/
theorem compressBlock_of_some {s : State} {n : PassCount} {a : Vector Word 8} {b : Vector Word 32}
    (hn : s.cfgPasses = some n) (ha : s.acc = some a) (hb : s.blk = some b) :
    compressBlock s = .next { s with acc := some (compress n a b), t := none } := by
  simp [compressBlock, runWorking, feedForward, hn, ha, hb, compress]

theorem compressBlock_frame {s t : State} (h : compressBlock s = .next t) :
    t = { s with acc := t.acc, t := none } := by
  simp only [compressBlock, runWorking, feedForward, andThen_eq_next, withValue_eq_next] at h
  obtain ⟨_, ⟨_, _, _, _, _, _, h1⟩, _, _, _, _, h2⟩ := h
  cases h1; cases h2; rfl

theorem loadBlock_frame {bytes : List Byte} {s t : State} (h : loadBlock bytes s = .next t) :
    t = { s with blk := t.blk } := by
  simp only [loadBlock, withValue_eq_next] at h
  obtain ⟨_, _, h⟩ := h
  cases h; rfl

/-- Compression of blocks changes ACC, BLK and T only. -/
theorem compressBlocks_frame {k : Nat} {bytes : List Byte} {s t : State} (h : compressBlocks k bytes s = .next t) :
    t = { s with acc := t.acc, blk := t.blk, t := t.t } := by
  induction k generalizing bytes s with
  | zero => cases h; rfl
  | succ k ih =>
    simp only [compressBlocks, andThen_eq_next] at h
    obtain ⟨s1, h1, s2, h2, h3⟩ := h
    have e1 := loadBlock_frame h1
    have e2 := compressBlock_frame h2
    have e3 := ih h3
    rw [e2, e1] at e3
    exact e3

theorem wordAt_take {s : List Byte} {m j : Nat} (h : 4 * j + 3 < m) : wordAt (s.take m) j = wordAt s j := by
  have g : ∀ i, i < m → (s.take m).getD i 0 = s.getD i 0 := fun i hi => by
    simp only [List.getD_eq_getElem?_getD, List.getElem?_take, hi, if_true]
  simp only [wordAt, g _ (by omega : 4 * j < m), g _ (by omega : 4 * j + 1 < m), g _ (by omega : 4 * j + 2 < m), g _ h]

theorem wordsAt_take (s : List Byte) : wordsAt 32 (s.take 128) = wordsAt 32 s := by
  simp only [wordsAt]
  congr 2
  exact List.map_congr_left fun j hj => wordAt_take (by have := List.mem_range.1 hj; omega)

theorem wordAt_append {s t : List Byte} {j : Nat} (h : 4 * j + 3 < s.length) : wordAt (s ++ t) j = wordAt s j := by
  have g : ∀ i, i < s.length → (s ++ t).getD i 0 = s.getD i 0 := fun i hi => by
    simp only [List.getD_eq_getElem?_getD, List.getElem?_append_left hi]
  simp only [wordAt, g _ (by omega : 4 * j < s.length), g _ (by omega : 4 * j + 1 < s.length),
    g _ (by omega : 4 * j + 2 < s.length), g _ h]

/-- Bytes after the blocks compressed make no difference. -/
theorem compressAll_append {n : PassCount} {k : Nat} {a : Vector Word 8} {s t : List Byte} (h : 128 * k ≤ s.length) :
    compressAll n k a (s ++ t) = compressAll n k a s := by
  induction k generalizing a s with
  | zero => rfl
  | succ k ih =>
    have hw : wordsAt 32 (s ++ t) = wordsAt 32 s := by
      simp only [wordsAt]
      congr 2
      exact List.map_congr_left fun j hj => wordAt_append (by have := List.mem_range.1 hj; omega)
    rw [compressAll, compressAll, hw, List.drop_append_of_le_length (by simp [blockBytes]; omega),
      ih (by simp [blockBytes]; omega)]

/-- Compressing k + l blocks is compressing k, then the next l. -/
theorem compressAll_add {n : PassCount} {k l : Nat} {a : Vector Word 8} {s : List Byte} :
    compressAll n (k + l) a s = compressAll n l (compressAll n k a s) (s.drop (128 * k)) := by
  induction k generalizing a s with
  | zero => simp [compressAll]
  | succ k ih =>
    rw [show k + 1 + l = (k + l) + 1 by omega, compressAll, compressAll, ih, List.drop_drop]
    simp only [blockBytes, show 128 + 128 * k = 128 * (k + 1) by omega]

/-- The blocks of a long enough byte sequence are compressed in order, and nothing stops. -/
theorem compressBlocks_of_some {k : Nat} {bytes : List Byte} {s : State} {n : PassCount} {a : Vector Word 8}
    (hn : s.cfgPasses = some n) (ha : s.acc = some a) (hl : 128 * k ≤ bytes.length) (ht : s.t = none) :
    compressBlocks k bytes s =
      .next { s with acc := some (compressAll n k a bytes), blk := lastBlock k bytes s.blk } := by
  induction k generalizing bytes s a with
  | zero => cases s; simp_all [compressBlocks, compressAll, lastBlock]
  | succ k ih =>
    have hb : (bytes.take blockBytes).length = 128 := by simp [blockBytes]; omega
    rw [compressBlocks, loadBlock_of_length hb, andThen_next,
      compressBlock_of_some (s := { s with blk := some (wordsAt 32 (bytes.take blockBytes)) }) hn ha rfl, andThen_next,
      ih (s := { s with
          acc := some (compress n a (wordsAt 32 (bytes.take blockBytes)))
          blk := some (wordsAt 32 (bytes.take blockBytes))
          t := none }) hn rfl (by simp [blockBytes]; omega) rfl]
    cases s
    simp only [compressAll, blockBytes, wordsAt_take] at *
    subst ht
    congr 2
    cases k with
    | zero => simp [lastBlock, wordsAt_take]
    | succ k =>
      have e : 128 + 128 * k = 128 * (k + 1) := by omega
      simp only [lastBlock, Nat.succ_ne_zero, if_false, Nat.add_sub_cancel, List.drop_drop, e]

end Sys2Proof.Machine
end

