-- ==== Sys2Proof/Laws/Exec.lean ====
section
/-! SUPPORT. Once, everything a command can do, and everything a step can do. -/

namespace Sys2Proof.Machine

/-- What a command that succeeds does to the state before it is answered, and its response, as far as the whole-machine
rules need it. -/
def Effect (i : Instr) (s s' : State) (response : List Byte) : Prop :=
  match i with
  | .init passes width => response = [] ∧ ∃ n w, passes.toNat = n.toNat ∧ width.toNat = w.bits ∧
      s' = initialised n w s
  | .absorb len => response = [] ∧ s.phase = .active ∧ ∃ c carry s1, s.bitcnt = some c ∧ s.carry = some carry ∧
      compressBlocks ((carry ++ s.payload).length / blockBytes) (carry ++ s.payload)
        { s with bitcnt := some (addBits c len) } = .next s1 ∧
      s' = { s1 with carry := some ((carry ++ s.payload).drop (blockBytes * ((carry ++ s.payload).length / blockBytes))) }
  | .finalize => s.phase = .active ∧ s' = cleared s
  | .diagF k => s' = s ∧ ∃ x, packVector 7 s.payload = .ok x ∧ response = unpack [roundFn k x]
  | .diagStep n p i => s' = s ∧ ∃ row o, passRow? n p = some row ∧ blockOperands s.payload = .ok o ∧
      response = unpack (stepWords row i o.2 o.1).toList
  | .diagCompress n => s' = s ∧ ∃ o, blockOperands s.payload = .ok o ∧ response = unpack (compress n o.1 o.2).toList
  | .diagFold w => s' = s ∧ ∃ V, packVector 8 s.payload = .ok V ∧ response = unpack (fold w V)

theorem requirePayload_eq_next {len : Nat} {s t : State} {k : Result} (h : requirePayload len s k = .next t) :
    (s.payload.length ≠ len ∧ reject .illegalCommand s = .next t) ∨ (s.payload.length = len ∧ k = .next t) := by
  unfold requirePayload at h
  split at h
  · exact .inr ⟨‹_›, h⟩
  · exact .inl ⟨‹_›, h⟩

theorem requireActive_eq_next {s t : State} {k : Result} (h : requireActive s k = .next t) :
    (s.phase ≠ .active ∧ reject .stateMisuse s = .next t) ∨ (s.phase = .active ∧ k = .next t) := by
  unfold requireActive at h
  split at h
  · exact .inr ⟨‹_›, h⟩
  · exact .inl ⟨‹_›, h⟩

/-- The ways a command can be rejected (60_exceptions R260 to R264). -/
def Cause (i : Instr) (s : State) (e : ErrCode) : Prop :=
  e = .illegalCommand ∨
  (e = .stateMisuse ∧ s.phase ≠ .active ∧ (i = .finalize ∨ ∃ len, i = .absorb len)) ∨
  (e = .configuration ∧ ∃ passes width, i = .init passes width)

/-- A command that gives a next state is either rejected for a cause of its own or has its effect. -/
theorem exec_eq_next {i : Instr} {s t : State} (h : exec i s = .next t) :
    (∃ e, Cause i s e ∧ reject e s = .next t) ∨
    (s.payload.length = payloadLength i ∧ ∃ s' response, Effect i s s' response ∧ succeed response s' = .next t) := by
  cases i with
  | init passes width =>
    obtain ⟨_, h⟩ | ⟨hl, h⟩ := requirePayload_eq_next h
    · exact .inl ⟨_, .inl rfl, h⟩
    · split at h
      · next n w hn hw =>
        exact .inr ⟨hl, _, _, ⟨rfl, n, w, PassCount.ofNat?_eq_some.1 hn, Width.ofNat?_eq_some.1 hw, rfl⟩, h⟩
      · exact .inl ⟨_, .inr (.inr ⟨rfl, _, _, rfl⟩), h⟩
  | absorb len =>
    obtain ⟨_, h⟩ | ⟨hl, h⟩ := requirePayload_eq_next h
    · exact .inl ⟨_, .inl rfl, h⟩
    obtain ⟨hp, h⟩ | ⟨hp, h⟩ := requireActive_eq_next h
    · exact .inl ⟨_, .inr (.inl ⟨rfl, hp, .inr ⟨_, rfl⟩⟩), h⟩
    simp only [absorbPayload, withValue_eq_next, andThen_eq_next, readElement_eq_ok] at h
    obtain ⟨c, hc, carry, hcar, s1, h1, h⟩ := h
    exact .inr ⟨hl, _, _, ⟨rfl, hp, c, carry, s1, hc, hcar, h1, rfl⟩, h⟩
  | finalize =>
    obtain ⟨_, h⟩ | ⟨hl, h⟩ := requirePayload_eq_next h
    · exact .inl ⟨_, .inl rfl, h⟩
    obtain ⟨hp, h⟩ | ⟨hp, h⟩ := requireActive_eq_next h
    · exact .inl ⟨_, .inr (.inl ⟨rfl, hp, .inl rfl⟩), h⟩
    simp only [finalizeMessage, withValue_eq_next, andThen_eq_next, readElement_eq_ok] at h
    obtain ⟨n, hn, w, hw, carry, hcar, c, hc, s1, h1, a, ha, h⟩ := h
    have e := compressBlocks_frame h1
    have e' : cleared s1 = cleared s := by rw [e]; rfl
    exact .inr ⟨hl, _, _, ⟨hp, e'⟩, h⟩
  | diagF k =>
    obtain ⟨_, h⟩ | ⟨hl, h⟩ := requirePayload_eq_next h
    · exact .inl ⟨_, .inl rfl, h⟩
    obtain ⟨x, hx, h⟩ := withValue_eq_next.1 h
    exact .inr ⟨hl, _, _, ⟨rfl, x, hx, rfl⟩, h⟩
  | diagStep n p i =>
    simp only [exec, execDiagStep] at h
    split at h
    · exact .inl ⟨_, .inl rfl, h⟩
    · next row hrow =>
      obtain ⟨_, h⟩ | ⟨hl, h⟩ := requirePayload_eq_next h
      · exact .inl ⟨_, .inl rfl, h⟩
      obtain ⟨o, ho, h⟩ := withValue_eq_next.1 h
      exact .inr ⟨hl, _, _, ⟨rfl, row, o, hrow, ho, rfl⟩, h⟩
  | diagCompress n =>
    obtain ⟨_, h⟩ | ⟨hl, h⟩ := requirePayload_eq_next h
    · exact .inl ⟨_, .inl rfl, h⟩
    obtain ⟨o, ho, h⟩ := withValue_eq_next.1 h
    exact .inr ⟨hl, _, _, ⟨rfl, o, ho, rfl⟩, h⟩
  | diagFold w =>
    obtain ⟨_, h⟩ | ⟨hl, h⟩ := requirePayload_eq_next h
    · exact .inl ⟨_, .inl rfl, h⟩
    obtain ⟨V, hV, h⟩ := withValue_eq_next.1 h
    exact .inr ⟨hl, _, _, ⟨rfl, V, hV, rfl⟩, h⟩

/-- A transaction is a run of the command its word decodes to, or a rejection of a word that decodes to none. -/
theorem perform_cases (x : Transaction) (s : State) :
    (∃ i, decode x.cmd = .ok i ∧ perform x s = exec i { s with payload := x.payload }) ∨
    (∃ e, decode x.cmd = .error e ∧ perform x s = reject .illegalCommand s) := by
  unfold perform
  cases h : decode x.cmd with
  | ok i => exact .inl ⟨i, rfl, rfl⟩
  | error e => exact .inr ⟨e, rfl, rfl⟩

/-- A step is one of: nothing, a transaction, a read of STATUS, a reset. -/
theorem step_cases {s t : State} (h : step s = .next t) :
    (s.inbox = [] ∧ t = s) ∨
    (∃ x rest, s.inbox = .transaction x :: rest ∧ perform x { s with inbox := rest } = .next t) ∨
    (∃ rest st, s.inbox = .readStatus :: rest ∧ statusOf s = .ok st ∧
      t = { s with inbox := rest, answers := s.answers ++ [.status st] }) ∨
    (∃ abandoned rest, s.inbox = .reset abandoned :: rest ∧ t = resetEngine { s with inbox := rest }) := by
  unfold step serveNext at h
  split at h
  · next hi => cases h; exact .inl ⟨hi, rfl⟩
  · next r rest hi =>
    cases r with
    | transaction x => exact .inr (.inl ⟨x, rest, hi, h⟩)
    | readStatus =>
      obtain ⟨st, hst, h⟩ := withValue_eq_next.1 h
      cases h
      exact .inr (.inr (.inl ⟨rest, st, hi, hst, rfl⟩))
    | reset ab => cases h; exact .inr (.inr (.inr ⟨ab, rest, hi, rfl⟩))

/-- A run of one step more. -/
theorem run_succ (M : Host.Core) {k : Nat} {s t u : M.State} (h : M.step s = .next t) (hr : M.run k t = .next u) :
    M.run (k + 1) s = .next u := by
  simp only [Host.Core.run, h]
  exact hr

end Sys2Proof.Machine
end

