-- ==== Sys2Proof/Laws/PerInstr.lean ====
section
/-! SUPPORT. Statements made of every command, one lemma per constructor. -/

namespace Sys2Proof.Laws.OpcodeByte

/-- The top byte of a command's word is its OP (30_encoding R72, R73). -/
def Statement (i : Instr) : Prop := opField (encode i) = opcode i

theorem of_encode (i : Instr) : Statement i := by
  unfold Statement opField
  ext k hk
  rw [BitVec.getElem_extractLsb', encode_getLsbD, if_neg (by omega), Nat.add_sub_cancel_left,
    BitVec.getLsbD_eq_getElem hk]

theorem init (passes : BitVec 8) (width : BitVec 16) : Statement (.init passes width) := of_encode _

theorem absorb (len : BitVec 24) : Statement (.absorb len) := of_encode _

theorem finalize : Statement .finalize := of_encode _

theorem diagF (k : PassIndex) : Statement (.diagF k) := of_encode _

theorem diagStep (n : PassCount) (p : PassIndex) (i : Fin 32) : Statement (.diagStep n p i) := of_encode _

theorem diagCompress (n : PassCount) : Statement (.diagCompress n) := of_encode _

theorem diagFold (w : Width) : Statement (.diagFold w) := of_encode _

end Sys2Proof.Laws.OpcodeByte
end

