-- ==== Sys2Proof/Laws/Status.lean ====
section
/-! SUPPORT. The fields of a STATUS word, once, and the words a state can show. -/

namespace Sys2Proof.Machine

/-- The fields of a word of eight parts, at the bits where STATUS has them. -/
theorem status_parts (a : BitVec 7) (w : BitVec 9) (b : BitVec 5) (n : BitVec 3) (s : BitVec 1) (e : BitVec 3)
    (z p : BitVec 2) (x : Word) (h : x = a ++ w ++ b ++ n ++ s ++ e ++ z ++ p) :
    x.extractLsb' 0 2 = p ∧ x.extractLsb' 2 2 = z ∧ x.extractLsb' 4 3 = e ∧ x.getLsbD 7 = s.getLsbD 0 ∧
    x.extractLsb' 11 5 = b ∧ x.extractLsb' 25 7 = a ∧ x.extractLsb' 8 3 = n ∧ x.extractLsb' 16 9 = w := by
  have hx : ∀ k, x.getLsbD k =
      if k < 2 then p.getLsbD k else if k - 2 < 2 then z.getLsbD (k - 2)
      else if k - 2 - 2 < 3 then e.getLsbD (k - 2 - 2) else if k - 2 - 2 - 3 < 1 then s.getLsbD (k - 2 - 2 - 3)
      else if k - 2 - 2 - 3 - 1 < 3 then n.getLsbD (k - 2 - 2 - 3 - 1)
      else if k - 2 - 2 - 3 - 1 - 3 < 5 then b.getLsbD (k - 2 - 2 - 3 - 1 - 3)
      else if k - 2 - 2 - 3 - 1 - 3 - 5 < 9 then w.getLsbD (k - 2 - 2 - 3 - 1 - 3 - 5)
      else a.getLsbD (k - 2 - 2 - 3 - 1 - 3 - 5 - 9) := by
    intro k
    rw [h]
    have ha : ∀ k, BitVec.getLsbD (a ++ w ++ b ++ n ++ s ++ e ++ z ++ p) k = _ := fun k => BitVec.getLsbD_append
    refine (ha k).trans ?_
    simp only [BitVec.getLsbD_append]
  refine ⟨?_, ?_, ?_, ?_, ?_, ?_, ?_, ?_⟩ <;> try (apply BitVec.eq_of_getLsbD_eq; intro i hi)
  all_goals simp only [BitVec.getLsbD_extractLsb', hx]
  all_goals (try simp only [hi]); (try interval_cases i) <;> simp

/-- The fields of `statusWord`. -/
theorem statusWord_fields (ph : Phase) (e : ErrCode) (st : Bool) (n w : Nat) (hn : n < 8) (hw : w < 512) :
    (statusWord ph e st n w).extractLsb' 0 2 = phaseCode ph ∧ (statusWord ph e st n w).extractLsb' 2 2 = 0#2 ∧
    (statusWord ph e st n w).extractLsb' 4 3 = errCode e ∧ (statusWord ph e st n w).getLsbD 7 = st ∧
    (statusWord ph e st n w).extractLsb' 11 5 = 0#5 ∧ (statusWord ph e st n w).extractLsb' 25 7 = 0#7 ∧
    ((statusWord ph e st n w).extractLsb' 8 3).toNat = n ∧ ((statusWord ph e st n w).extractLsb' 16 9).toNat = w := by
  obtain ⟨h1, h2, h3, h4, h5, h6, h7, h8⟩ :=
    status_parts 0#7 (BitVec.ofNat 9 w) 0#5 (BitVec.ofNat 3 n) (BitVec.ofBool st) (errCode e) 0#2 (phaseCode ph)
      (statusWord ph e st n w) rfl
  exact ⟨h1, h2, h3, by rw [h4]; cases st <;> rfl, h5, h6, by rw [h7]; simp; omega, by rw [h8]; simp; omega⟩

/-- The STATUS a state shows, by its phase. -/
theorem statusOf_eq_ok {s : State} {st : Word} (h : statusOf s = .ok st) :
    (s.phase = .unconfigured ∧ st = statusWord .unconfigured s.lastErr s.errSticky 0 0) ∨
    (s.phase ≠ .unconfigured ∧ ∃ n w, s.cfgPasses = some n ∧ s.cfgWidth = some w ∧
      st = statusWord s.phase s.lastErr s.errSticky n.toNat w.bits) := by
  unfold statusOf at h
  split at h
  · cases h; exact .inl ⟨by assumption, rfl⟩
  all_goals
    split at h <;> cases h
    rename_i n w hn hw
    exact .inr ⟨by simp_all, n, w, readElement_eq_ok.1 hn, readElement_eq_ok.1 hw, rfl⟩

end Sys2Proof.Machine
end

