-- ==== Sys2Proof/Tests/Slice0.lean ====
section
/-! SUPPORT. The model's own tests. Expected values are those of spec/95_test_vectors (its section is named), or words written
out from 30_encoding. After them, for every obligation with hypotheses, a witness that meets them together. -/

namespace Sys2Proof.Tests

open Sys2Proof.Machine

/-! ## Helpers -/

/-- The answers of an outcome. -/
def answersOf : Result → List Answer
  | .next s => s.answers
  | _ => []

/-- The answers of a few steps from the reset state. -/
def answersFrom (requests : List Request) : List Answer :=
  answersOf (Host.Core.run core requests.length (clean requests))

/-- The STATUS and the response of the last transaction. -/
def lastAnswer (requests : List Request) : Option Answer := (answersFrom requests).getLast?

/-- A raw transaction. -/
def raw (cmd : Word) (payload : List Byte) : Request := .transaction ⟨cmd, payload⟩

/-- Bytes 0, 1, 2, … as words: the block of 95_test_vectors whose word j is j. -/
def countingBlock : List Word := stepIndices.map fun j => BitVec.ofNat 32 j.val

/-- An ACTIVE state after INIT 3, 128 and ABSORB "a" (95_test_vectors P2), with a payload and requests. -/
def active (payload : List Byte) (requests : List Request) : State :=
  { configured .three .w128 false requests with
    bitcnt := some 8#64, carry := some [0x61#8], payload := payload }

/-- A FINALIZED state, with a payload and requests. -/
def finalized (payload : List Byte) (requests : List Request) : State :=
  { cleared (configured .three .w128 false requests) with payload := payload }

theorem active_inv (payload : List Byte) (requests : List Request) : EngineInv (active payload requests) :=
  ⟨⟨.three, .w128, iv, 8#64, [0x61#8], rfl, rfl, rfl, rfl, rfl, by decide, by decide⟩, rfl, nofun⟩

theorem finalized_inv (payload : List Byte) (requests : List Request) : EngineInv (finalized payload requests) :=
  ⟨⟨.three, .w128, rfl, rfl, rfl, rfl, rfl, rfl⟩, rfl, nofun⟩

theorem clean_inv (requests : List Request) : StateInv (clean requests) :=
  ⟨⟨⟨rfl, rfl, rfl, rfl, rfl, rfl⟩, rfl, nofun⟩, rfl⟩

/-! ## Well-formedness and decoding -/

/-- PASS above NPASS is the one ill-formed term the operands' types admit. -/
theorem test_wellFormed_refuses_pass_above_npass :
    (Instr.diagStep .three .four 0).wellFormed = false ∧ (Instr.diagStep .four .five 31).wellFormed = false ∧
    (Instr.diagStep .three .three 0).wellFormed = true := by decide

/-- OP [31:24], WIDTH [23:8], PASSES [7:0] (30_encoding R72, R74). -/
theorem test_decode_init :
    decode 0b00000001_0000000010100000_00000100#32 = .ok (.init 4#8 160#16) := by decide

/-- OP, LEN [23:0] (30_encoding R75). -/
theorem test_decode_absorb :
    decode 0b00000010_100000000000000000000110#32 = .ok (.absorb 0x800006#24) := by decide

/-- OP, all of ARG 0 (30_encoding R76). -/
theorem test_decode_finalize :
    decode 0b00000011_000000000000000000000000#32 = .ok .finalize ∧
    decode 0b00000011_100000000000000000000000#32 = .error .reservedBits := by decide

/-- OP, reserved [23:3], K [2:0] (30_encoding R77). -/
theorem test_decode_diagF :
    decode 0b00010000_000000000000000000000_100#32 = .ok (.diagF .four) ∧
    decode 0b00010000_000000000000000000000_110#32 = .error .fieldOutOfRange := by decide

/-- OP, reserved [23:13], STEP [12:8], [7], NPASS [6:4], [3], PASS [2:0] (30_encoding R78). -/
theorem test_decode_diagStep :
    decode 0b00010001_00000000000_10001_0_100_0_010#32 = .ok (.diagStep .four .two 17) ∧
    decode 0b00010001_00000000000_10001_1_100_0_010#32 = .error .reservedBits := by decide

/-- OP, reserved [23:3], NPASS [2:0] (30_encoding R79). -/
theorem test_decode_diagCompress :
    decode 0b00010010_000000000000000000000_101#32 = .ok (.diagCompress .five) ∧
    decode 0b00010010_000000000000000001000_101#32 = .error .reservedBits := by decide

/-- OP, WIDTH [23:8], reserved [7:0] (30_encoding R80). -/
theorem test_decode_diagFold :
    decode 0b00010011_0000000011100000_00000000#32 = .ok (.diagFold .w224) ∧
    decode 0b00010011_0000000001100100_00000000#32 = .error .fieldOutOfRange := by decide

/-- 95_test_vectors 2.11: PASS above NPASS, and reserved bits 7 and 3 of DIAG_STEP. -/
theorem test_decode_rejects :
    decode 0x11000036#32 = .error .fieldOutOfRange ∧ decode 0x110000B1#32 = .error .reservedBits ∧
    decode 0x11000039#32 = .error .reservedBits ∧ decode 0xFF000000#32 = .error .reservedOpcode := by decide

/-- The table's words and the fetch of one. -/
theorem test_fetch_word :
    decodeTableWord 32 0x01008003 = some (.init 3#8 128#16) ∧
    answersOf (step (State.reset.withFetchWord 32 0x01008003)) = [.done 0x00800301#32 []] := by decide +kernel

/-! ## Units -/

/-- 95_test_vectors 2.1. -/
theorem test_pack :
    pack [0, 1, 2, 3, 4, 5, 6, 7] = .ok [0x03020100#32, 0x07060504#32] ∧
    unpack [0x12345678#32] = [0x78#8, 0x56#8, 0x34#8, 0x12#8] ∧ pack [0, 1, 2] = .error .packing := by decide

/-- 95_test_vectors 2.3: FPHI and FF of row (5, 4). -/
theorem test_fphi :
    fphi .n5p4 #v[iv[0], iv[1], iv[2], iv[3], iv[4], iv[5], iv[6]] = 0x0E0CA31E#32 ∧
    ff .n5p4 iv 0#32 (roundConst .four 0) = 0x478BF694#32 := by decide +kernel

/-- 95_test_vectors 2.7. -/
theorem test_padLength :
    [0, 1, 100, 116, 117, 118, 119, 127].map padLength = [118, 117, 18, 2, 1, 128, 127, 119] := by decide

/-- 95_test_vectors 2.8. -/
theorem test_tail :
    tailBytes .five .w256 0x123456789ABCDEF0#64 =
      [0x29#8, 0x40#8, 0xf0#8, 0xde#8, 0xbc#8, 0x9a#8, 0x78#8, 0x56#8, 0x34#8, 0x12#8] := by decide

/-- 95_test_vectors 2.9: the carry into the high half, and the wrap. -/
theorem test_bitCounter :
    addBits 0x00000000FFFFFFF8#64 1#24 = 0x0000000100000000#64 ∧ addBits 0xFFFFFFFFFFFFFFF8#64 1#24 = 0#64 := by
  decide

/-- 95_test_vectors 2.6: the rows "IV" and "Vj = j" of the fold to 160 and 192 bits. -/
theorem test_fold :
    fold .w160 iv = [0x24408BBB#32, 0x85A954E7#32, 0x131FF4BE#32, 0x0371AF0B#32, 0xA417FB15#32] ∧
    fold .w192 #v[0, 1, 2, 3, 4, 5, 6, 7] = [0x1C0#32, 7#32, 2#32, 3#32, 4#32, 5#32] := by decide +kernel

/-! ## Commands -/

/-- 95_test_vectors 2.11: INIT 3, 128 and INIT 3, 100 from Clean. -/
theorem test_init :
    answersFrom [raw 0x01008003#32 []] = [.done 0x00800301#32 []] ∧
    answersFrom [raw 0x01006403#32 []] = [.done 0x00000090#32 []] := by decide +kernel

/-- 95_test_vectors 2.11: ABSORB "ab" from Clean, and with a short payload. -/
theorem test_absorb_rejected :
    answersFrom [raw 0x02000002#32 [0x61#8, 0x62#8]] = [.done 0x000000A0#32 []] ∧
    answersFrom [raw 0x02000002#32 [0x61#8]] = [.done 0x000000C0#32 []] := by decide +kernel

/-- 95_test_vectors P2: "a" at (3, 128). -/
theorem test_absorb_and_finalize :
    answersFrom [raw 0x01008003#32 [], raw 0x02000001#32 [0x61#8], raw 0x03000000#32 []] =
      [.done 0x00800301#32 [], .done 0x00800301#32 [],
       .done 0x00800302#32 [0x0c#8, 0xd4#8, 0x07#8, 0x39#8, 0x68#8, 0x3e#8, 0x15#8, 0xf0#8,
         0x1c#8, 0xa5#8, 0xdb#8, 0xce#8, 0xef#8, 0x40#8, 0x59#8, 0xf1#8]] := by
  decide +kernel

/-- 95_test_vectors P6: a padding of two blocks; the accumulator after the second, unpacked. -/
theorem test_finalize_two_blocks :
    lastAnswer [raw 0x01010003#32 [], raw 0x02000076#32 (byteRange 0 118), raw 0x03000000#32 []] =
      some (.done 0x01000302#32 (unpack [0x52753AFA#32, 0x705FAE1C#32, 0xB05C259E#32, 0x3042A4CB#32, 0x716D5366#32,
        0x86FA38A7#32, 0xF793812B#32, 0x2CDF92F2#32])) := by decide +kernel

/-- 95_test_vectors P5 and 2.11: DIAG_F 1 of IV, and of a payload one byte short. -/
theorem test_diagF :
    lastAnswer [raw 0x10000001#32 (unpack (iv.toList.take 7))] =
      some (.done 0#32 [0x0a#8, 0x18#8, 0x24#8, 0xa5#8]) ∧
    lastAnswer [raw 0x10000001#32 (List.replicate 27 0#8)] = some (.done 0x000000C0#32 []) := by decide +kernel

/-- 95_test_vectors 2.4: DIAG_STEP 3, 1, 0 changes word 7 only. -/
theorem test_diagStep :
    lastAnswer [raw 0x11000031#32 (unpack (iv.toList ++ countingBlock))] =
      some (.done 0#32 (unpack (iv.toList.take 7 ++ [0x4A8B047D#32]))) := by decide +kernel

/-- 95_test_vectors 2.5: DIAG_COMPRESS 4 of IV and the counting block. -/
theorem test_diagCompress :
    lastAnswer [raw 0x12000004#32 (unpack (iv.toList ++ countingBlock))] =
      some (.done 0#32 (unpack [0x5D1E90E2#32, 0x87D45519#32, 0xDD2F87A0#32, 0xD015B231#32, 0x3573A131#32,
        0x8A98CBE7#32, 0xEDE9BE50#32, 0x175BA3D6#32])) := by decide +kernel

/-- 95_test_vectors 2.6: DIAG_FOLD 128 of IV. -/
theorem test_diagFold :
    lastAnswer [raw 0x13008000#32 (unpack iv.toList)] =
      some (.done 0#32 (unpack [0xAD4809C0#32, 0xF23B31DC#32, 0x62145AD2#32, 0xEF9EA466#32])) := by decide +kernel

/-- STATUS is readable between transactions, and a reset clears ERR_STICKY without an answer (70_reset_and_hazards R292,
R295). -/
theorem test_status_and_reset :
    answersFrom [raw 0x04000000#32 [], .readStatus, .reset none, .readStatus] =
      [.done 0x000000C0#32 [], .status 0x000000C0#32, .status 0#32] := by decide +kernel

/-- Lines of 95_test_vectors P2 in the assembler's syntax. -/
theorem test_assembler :
    assembleProgram ["INIT 3, 128        ; 0x01008003".toList, "ABSORB \"a\"".toList, "FINALIZE".toList] =
      some [raw 0x01008003#32 [], raw 0x02000001#32 [0x61#8], raw 0x03000000#32 []] := by decide +kernel

/-- A diagnostic line: the fields, then the words after `;`. -/
theorem test_assembler_words :
    parseLine "DIAG_FOLD 128 ; 0 1 0x2 3 4 5 6 FF".toList =
      some (.diagFold 128 [0#32, 1#32, 2#32, 3#32, 4#32, 5#32, 6#32, 0xFF#32]) := by decide +kernel

/-! ## Witnesses

One per obligation with hypotheses, named after it: states and operands that meet the hypotheses of each clause. -/

/-- A next state, by evaluation. -/
abbrev Runs (r : Result) : Prop := ∃ t, r = .next t

/-- A next state with a property, by evaluation. -/
abbrev RunsTo (r : Result) (p : State → Prop) : Prop := ∃ t, r = .next t ∧ p t

/-- Whether an outcome is a next state whose LAST_ERR is NONE. -/
def succeeds : Result → Bool
  | .next t => t.lastErr = .none
  | _ => false

theorem runsTo_of_succeeds {r : Result} (h : succeeds r = true) : RunsTo r fun t => t.lastErr = .none := by
  cases r <;> simp [succeeds] at h
  exact ⟨_, rfl, h⟩

theorem witness_StepKeepsInvariant :
    StateInv (active [] [absorbRequest [0x62#8]]) ∧ Runs (step (active [] [absorbRequest [0x62#8]])) :=
  ⟨⟨active_inv _ _, rfl⟩, _, rfl⟩

theorem witness_EveryStepGivesANextState : StateInv (finalized [] [finalizeRequest]) := ⟨finalized_inv _ _, rfl⟩

theorem witness_RequestsServedInOrder : Runs (step (clean [.readStatus, finalizeRequest])) := ⟨_, rfl⟩

theorem witness_StepRunsDecodedCommand :
    (clean [raw 0x02000001#32 [0x61#8]]).inbox = [.transaction ⟨0x02000001#32, [0x61#8]⟩] ∧
    decode 0x02000001#32 = .ok (.absorb 1#24) := ⟨rfl, by decide⟩

theorem witness_IdleEngineHoldsState : (active [] []).inbox = [] := rfl

theorem witness_ResetRequestResetsEngine :
    (active [] [.reset (some ⟨0x03000000#32, []⟩), .readStatus]).inbox =
      .reset (some ⟨0x03000000#32, []⟩) :: [.readStatus] := rfl

theorem witness_StatusRegisterLayout :
    (∃ st, statusOf (clean []) = .ok st) ∧ (clean []).phase = .unconfigured ∧
    (∃ st, statusOf (active [] []) = .ok st) ∧ (active [] []).phase ≠ .unconfigured ∧
    EngineInv (finalized [] [.readStatus]) ∧ (finalized [] [.readStatus]).inbox = [.readStatus] :=
  ⟨⟨_, rfl⟩, rfl, ⟨_, rfl⟩, nofun, finalized_inv _ _, rfl⟩

theorem witness_HostReadsStatusBack : EngineInv (active [] []) ∧ ∃ st, statusOf (active [] []) = .ok st :=
  ⟨active_inv _ _, _, rfl⟩

theorem witness_StickyErrorUntilReset :
    RunsTo (perform ⟨0x04000000#32, []⟩ (clean [])) (fun t => t.lastErr ≠ .none) ∧
    { active [] [.reset none] with errSticky := true }.errSticky = true ∧
    RunsTo (step { active [] [.reset none] with errSticky := true }) (fun t => t.errSticky = false) ∧
    (active [] [.reset none]).inbox = [.reset none] :=
  ⟨⟨_, rfl, nofun⟩, rfl, ⟨_, rfl, rfl⟩, rfl⟩

theorem witness_PhaseTransitions :
    RunsTo (exec (.init 4#8 160#16) (finalized [] [])) (fun t => t.lastErr = .none) ∧
    RunsTo (exec .finalize (active [] [])) (fun t => t.lastErr = .none) ∧
    (active [] [.reset none]).inbox = [.reset none] ∧ Runs (step (active [] [.reset none])) ∧
    RunsTo (exec .finalize (clean [])) (fun t => t.lastErr ≠ .none) ∧
    (∀ passes width, Instr.absorb 0#24 ≠ .init passes width) ∧ Instr.absorb 0#24 ≠ .finalize ∧
    Runs (exec (.absorb 0#24) (active [] [])) ∧
    decode 0x04000000#32 = .error .reservedOpcode ∧ Runs (perform ⟨0x04000000#32, []⟩ (active [] [])) :=
  ⟨⟨_, rfl, rfl⟩, runsTo_of_succeeds (by decide +kernel), rfl, ⟨_, rfl⟩, ⟨_, rfl, nofun⟩, nofun, nofun, ⟨_, rfl⟩, by decide, _, rfl⟩

theorem witness_OnlyInitWritesConfiguration : Runs (exec (.init 5#8 256#16) (active [] [])) := ⟨_, rfl⟩

theorem witness_AnswersAreExclusive :
    Runs (step (active [] [raw 0x04000000#32 []])) ∧ ∀ a ∈ (active [] [raw 0x04000000#32 []]).answers, AnswerExclusive a :=
  ⟨⟨_, rfl⟩, nofun⟩

theorem witness_DecodeOfEncode : (Instr.diagStep .five .five 31).wellFormed = true := by decide

theorem witness_DecodedWordIsTheEncoding : decode 0x11001F55#32 = .ok (.diagStep .five .five 31) := by decide

theorem witness_ReservedOpcodesRejected :
    (opField 0x14000000#32).toNat ∉ [0x01, 0x02, 0x03, 0x10, 0x11, 0x12, 0x13] ∧
    (opField 0x00FFFFFF#32).toNat ∉ [0x01, 0x02, 0x03, 0x10, 0x11, 0x12, 0x13] ∧
    StateInv (active [] [raw 0x14000000#32 [1#8]]) ∧
    (active [] [raw 0x14000000#32 [1#8]]).inbox = [.transaction ⟨0x14000000#32, [1#8]⟩] :=
  ⟨by decide, by decide, ⟨active_inv _ _, rfl⟩, rfl⟩

theorem witness_ReservedBitsAndFieldsRejected :
    BadArgument 0x03000001#32 ∧ BadArgument 0x10000006#32 ∧ BadArgument 0x11000034#32 ∧ BadArgument 0x1200000B#32 ∧
    BadArgument 0x13006400#32 ∧
    StateInv (active [] [raw 0x11000034#32 []]) ∧
    (active [] [raw 0x11000034#32 []]).inbox = [.transaction ⟨0x11000034#32, []⟩] ∧
    opField 0x01006403#32 = 0x01#8 ∧ (BitVec.extractLsb' 8 16 0x01006403#32).toNat ∉ [128, 160, 192, 224, 256] ∧
    StateInv (clean [raw 0x01006403#32 []]) ∧
    (clean [raw 0x01006403#32 []]).inbox = [.transaction ⟨0x01006403#32, []⟩] :=
  ⟨by unfold BadArgument; decide, by unfold BadArgument; decide, by unfold BadArgument; decide,
   by unfold BadArgument; decide, by unfold BadArgument; decide, ⟨active_inv _ _, rfl⟩, rfl, by decide, by decide,
   clean_inv _, rfl⟩

theorem witness_PayloadLengthFromCommandWord :
    opField 0x02FFFFFF#32 = 0x02#8 ∧ opField 0x01FFFF05#32 = 0x01#8 ∧
    decode 0x13006400#32 = .error .fieldOutOfRange ∧
    opField 0x03000000#32 = 0x03#8 ∧ decode 0x03000000#32 = .ok .finalize ∧
    opField 0x10000001#32 = 0x10#8 ∧ decode 0x10000001#32 = .ok (.diagF .one) ∧
    opField 0x11000031#32 = 0x11#8 ∧ decode 0x11000031#32 = .ok (.diagStep .three .one 0) ∧
    opField 0x12000003#32 = 0x12#8 ∧ decode 0x12000003#32 = .ok (.diagCompress .three) ∧
    opField 0x13008000#32 = 0x13#8 ∧ decode 0x13008000#32 = .ok (.diagFold .w128) := by decide

theorem witness_RejectionChangesStatusOnly :
    RunsTo (perform ⟨0x02000001#32, [0x61#8]⟩ (finalized [] [])) (fun t => t.lastErr ≠ .none) := ⟨_, rfl, nofun⟩

theorem witness_CommandsSucceedOrAreRejected : EngineInv (active [0x61#8] []) := active_inv _ _

theorem witness_WrongPayloadLengthRejected :
    EngineInv (active [0x61#8] []) ∧ (active [0x61#8] []).payload.length ≠ payloadLength (.absorb 2#24) ∧
    (active [0x61#8] []).payload.length ≠ payloadLength .finalize := ⟨active_inv _ _, by decide, by decide⟩

theorem witness_MisuseRejected :
    EngineInv (finalized [0x61#8] []) ∧ (finalized [0x61#8] []).phase ≠ .active ∧
    (finalized [0x61#8] []).payload.length = (1#24).toNat ∧
    EngineInv (clean []) ∧ (clean []).phase ≠ .active ∧ (clean []).payload = [] ∧
    RunsTo (exec .finalize (clean [])) (fun t => t.lastErr = .stateMisuse) :=
  ⟨finalized_inv _ _, nofun, rfl, (clean_inv _).1, nofun, rfl, _, rfl, rfl⟩

theorem witness_InitStartsComputation :
    EngineInv (finalized [] []) ∧ (finalized [] []).payload = [] ∧
    ((6#8).toNat ∉ [3, 4, 5]) ∧ (100#16).toNat ∉ [128, 160, 192, 224, 256] :=
  ⟨finalized_inv _ _, rfl, by decide, by decide⟩

theorem witness_AbsorbAddsItsPayload :
    (EngineInv (active (byteRange 0 127) []) ∧ (active (byteRange 0 127) []).phase = .active ∧
      (active (byteRange 0 127) []).cfgPasses = some .three ∧ (active (byteRange 0 127) []).acc = some iv ∧
      (active (byteRange 0 127) []).bitcnt = some 8#64 ∧ (active (byteRange 0 127) []).carry = some [0x61#8] ∧
      (active (byteRange 0 127) []).payload.length = (127#24).toNat) ∧
    (EngineInv (active [] []) ∧ (active [] []).phase = .active ∧ (active [] []).payload = []) ∧
    (EngineInv (finalized [0x61#8] []) ∧ (finalized [0x61#8] []).phase ≠ .active ∧
      (finalized [0x61#8] []).payload.length = (1#24).toNat) :=
  ⟨⟨active_inv _ _, rfl, rfl, rfl, rfl, rfl, by decide +kernel⟩, ⟨active_inv _ _, rfl, rfl⟩, finalized_inv _ _, nofun, rfl⟩

theorem witness_AbsorbLeavesTheLastBlock :
    EngineInv (active [0x62#8] []) ∧ (active [0x62#8] []).phase = .active ∧
    (active [0x62#8] []).carry = some [0x61#8] ∧ (active [0x62#8] []).payload.length = (1#24).toNat ∧
    Runs (exec (.absorb 1#24) (active [0x62#8] [])) := ⟨active_inv _ _, rfl, rfl, rfl, _, rfl⟩

theorem witness_FinalizeEmitsTheDigest :
    (EngineInv (active [] []) ∧ (active [] []).phase = .active ∧ (active [] []).cfgPasses = some .three ∧
      (active [] []).cfgWidth = some .w128 ∧ (active [] []).acc = some iv ∧ (active [] []).bitcnt = some 8#64 ∧
      (active [] []).carry = some [0x61#8] ∧ (active [] []).payload = []) ∧
    (EngineInv (clean []) ∧ (clean []).phase ≠ .active ∧ (clean []).payload = []) :=
  ⟨⟨active_inv _ _, rfl, rfl, rfl, rfl, rfl, rfl, rfl⟩, (clean_inv _).1, nofun, rfl⟩

theorem witness_SecondFinalizeRejected :
    StateInv (active [] [finalizeRequest, finalizeRequest]) ∧ (active [] [finalizeRequest, finalizeRequest]).phase = .active ∧
    (active [] [finalizeRequest, finalizeRequest]).inbox = [finalizeRequest, finalizeRequest] :=
  ⟨⟨active_inv _ _, rfl⟩, rfl, rfl⟩

/-- Both sides of the boundary between the two lengths, and the longest carry. -/
theorem witness_PaddingLengthAndBytes : 117 ≤ 127 ∧ 117 < 118 ∧ 118 ≤ 118 ∧ 118 ≤ 127 ∧ 127 ≤ 127 := by decide

/-- Both sides of the boundary between one final block and two. -/
theorem witness_FinalBlocks :
    (byteRange 0 117).length ≤ 127 ∧ (byteRange 0 117).length ≤ 117 ∧
    118 ≤ (byteRange 0 118).length ∧ (byteRange 0 127).length ≤ 127 := by decide +kernel

theorem witness_TailLayout : (7 : Nat) < 8 := by decide

theorem witness_DigestBytes : (4 : Nat) < Width.w160.bits / 32 ∧ (3 : Nat) < 4 := by decide

theorem witness_PackAndUnpackInvert :
    (byteRange 0 8).length % 4 = 0 ∧ (byteRange 0 7).length % 4 ≠ 0 := by decide +kernel

theorem witness_PackedWordsAndBytes :
    (byteRange 0 7).length % 4 ≠ 0 ∧ (byteRange 0 8).length % 4 = 0 ∧ 1 < (byteRange 0 8).length / 4 ∧
    1 < [0x12345678#32, 0#32].length ∧ 3 < 4 := by decide +kernel

theorem witness_RoundFunctionsAreBitwise :
    ∀ j : Fin 7, (#v[1#32, 1, 1, 1, 1, 1, 1])[j].getLsbD 0 = (#v[0x80000000#32, 0x80000000, 0x80000000, 0x80000000,
      0x80000000, 0x80000000, 0x80000000])[j].getLsbD 31 := by decide

theorem witness_StepInputsRotate : (31 : Fin 32).val = (30 : Fin 32).val + 1 := by decide

theorem witness_PassesRunInOrder : 159 < 32 * PassCount.five.toNat := by decide

theorem witness_DiagFReturnsRoundFunction :
    EngineInv (active (byteRange 0 28) []) ∧ (active (byteRange 0 28) []).payload.length = 28 ∧
    opField 0x10000006#32 = 0x10#8 ∧
    ∀ k : PassIndex, 0x10000006#32 ≠ (0x10#8 ++ (0#21 ++ BitVec.ofNat 3 k.toNat) : BitVec 32) :=
  ⟨active_inv _ _, by decide +kernel, by decide +kernel, fun k => by cases k <;> decide +kernel⟩

theorem witness_DiagStepReturnsOneStep :
    EngineInv (active (byteRange 0 160) []) ∧ (active (byteRange 0 160) []).payload.length = 160 ∧
    27 < 32 ∧ 27 / 4 ≠ (7 + 8 - (0 : Fin 32).val % 8) % 8 ∧ 31 / 4 ≠ (7 + 8 - (31 : Fin 32).val % 8) % 8 ∧
    opField 0x11000034#32 = 0x11#8 ∧
    ∀ (row : PassRow) (i : Fin 32), 0x11000034#32 ≠ (0x11#8 ++ (0#11 ++ BitVec.ofFin (w := 5) i ++ 0#1 ++
      BitVec.ofNat 3 row.passCount.toNat ++ 0#1 ++ BitVec.ofNat 3 row.passIndex.toNat) : BitVec 32) :=
  ⟨active_inv _ _, by decide +kernel, by decide +kernel, by decide +kernel, by decide +kernel, by decide +kernel,
   fun row => by cases row <;> decide +kernel⟩

theorem witness_IllFormedStepRejected :
    EngineInv (active [] []) ∧ PassCount.three.toNat < PassIndex.four.toNat ∧
    decode 0x11000031#32 = .ok (.diagStep .three .one 0) := ⟨active_inv _ _, by decide, by decide⟩

theorem witness_DiagCompressReturnsCompression :
    EngineInv (finalized (byteRange 0 160) []) ∧ (finalized (byteRange 0 160) []).payload.length = 160 ∧
    opField 0x1200000B#32 = 0x12#8 ∧
    ∀ n : PassCount, 0x1200000B#32 ≠ (0x12#8 ++ (0#21 ++ BitVec.ofNat 3 n.toNat) : BitVec 32) :=
  ⟨finalized_inv _ _, by decide +kernel, by decide +kernel, fun n => by cases n <;> decide +kernel⟩

theorem witness_DiagFoldReturnsFold :
    EngineInv (finalized (byteRange 0 32) []) ∧ (finalized (byteRange 0 32) []).payload.length = 32 ∧
    opField 0x13006400#32 = 0x13#8 ∧
    ∀ w : Width, 0x13006400#32 ≠ (0x13#8 ++ (BitVec.ofNat 16 w.bits ++ 0#8) : BitVec 32) :=
  ⟨finalized_inv _ _, by decide +kernel, by decide +kernel, fun w => by cases w <;> decide +kernel⟩

theorem witness_DiagnosticsLeaveTheComputation :
    isDiagnostic (.diagFold .w128) = true ∧ (Instr.diagFold .w128).wellFormed = true ∧
    EngineInv (active (byteRange 0 32) []) ∧
    (active (byteRange 0 32) []).payload.length = payloadLength (.diagFold .w128) ∧
    (active (byteRange 0 32) []).payload = (finalized (byteRange 0 32) []).payload ∧
    RunsTo (exec (.diagFold .w128) (active (byteRange 0 32) [])) (fun t => t.lastErr = .none) ∧
    RunsTo (exec (.diagFold .w128) (finalized (byteRange 0 32) [])) (fun t => t.lastErr = .none) :=
  ⟨rfl, rfl, active_inv _ _, by decide +kernel, rfl, runsTo_of_succeeds (by decide +kernel),
   runsTo_of_succeeds (by decide +kernel)⟩

theorem witness_DiagnosticsAgreeWithTheHashPath (V : Vector Word 8) :
    (EngineInv (active [] []) ∧ (active [] []).phase = .active ∧ (active [] []).cfgPasses = some .three ∧
      (active [] []).cfgWidth = some .w128 ∧ (active [] []).acc = some iv ∧ (active [] []).bitcnt = some 8#64 ∧
      (active [] []).carry = some [0x61#8] ∧ (active [] []).payload = [] ∧
      EngineInv (active (unpack V.toList) []) ∧ (active (unpack V.toList) []).payload = unpack V.toList) ∧
    (EngineInv (active (byteRange 0 127) []) ∧ (active (byteRange 0 127) []).payload.length = (127#24).toNat ∧
      ([0x61#8] ++ (active (byteRange 0 127) []).payload).length = 128 ∧
      (finalized (unpack iv.toList ++ ([0x61#8] ++ byteRange 0 127)) []).payload =
        unpack iv.toList ++ ([0x61#8] ++ (active (byteRange 0 127) []).payload)) :=
  ⟨⟨active_inv _ _, rfl, rfl, rfl, rfl, rfl, rfl, rfl, active_inv _ _, rfl⟩, active_inv _ _, by decide +kernel, by decide +kernel, rfl⟩

theorem witness_HashComputesTheMessageDigest :
    StateInv (clean (hashRequests .three .w128 [[0x61#8], []] ++ [.readStatus])) ∧
    (∀ c ∈ [[0x61#8], ([] : List Byte)], c.length ≤ maxAbsorb) ∧
    (clean (hashRequests .three .w128 [[0x61#8], []] ++ [.readStatus])).inbox =
      hashRequests .three .w128 [[0x61#8], []] ++ [.readStatus] :=
  ⟨clean_inv _, by decide, rfl⟩

theorem witness_ChunkingInvariance :
    StateInv (clean (initRequest .three .w128 :: ([[0x61#8]].map absorbRequest ++ [.readStatus]))) ∧
    (∀ c ∈ [[0x61#8, 0x62#8]], c.length ≤ maxAbsorb) ∧ (∀ c ∈ [[0x61#8], [0x62#8]], c.length ≤ maxAbsorb) ∧
    [[0x61#8, 0x62#8]].flatten = [[0x61#8], [0x62#8]].flatten ∧
    StateInv (clean (hashRequests .three .w128 [[0x61#8, 0x62#8]])) ∧
    StateInv (finalized [] (hashRequests .three .w128 [[0x61#8], [0x62#8]])) ∧
    (finalized [] (hashRequests .three .w128 [[0x61#8], [0x62#8]])).inbox = hashRequests .three .w128 [[0x61#8], [0x62#8]] :=
  ⟨clean_inv _, by decide, by decide, rfl, clean_inv _, ⟨finalized_inv _ _, rfl⟩, rfl⟩

/-- Two computations with different carries, that show the host the same. -/
theorem witness_NoPartialDigest :
    StateInv (active [] [absorbRequest [0x62#8]]) ∧
    StateInv { active [] [absorbRequest [0x62#8]] with carry := some [0x63#8] } ∧
    visible (active [] [absorbRequest [0x62#8]]) =
      visible { active [] [absorbRequest [0x62#8]] with carry := some [0x63#8] } ∧
    ¬ ((active [] [absorbRequest [0x62#8]]).phase = .active ∧
      (active [] [absorbRequest [0x62#8]]).inbox.head? = some finalizeRequest) ∧
    Runs (step (active [] [absorbRequest [0x62#8]])) ∧
    Runs (step { active [] [absorbRequest [0x62#8]] with carry := some [0x63#8] }) ∧
    RunsTo (exec .finalize (finalized [] [])) (fun t => t.lastErr ≠ .none) :=
  ⟨⟨active_inv _ _, rfl⟩,
   ⟨⟨⟨.three, .w128, iv, 8#64, [0x63#8], rfl, rfl, rfl, rfl, rfl, by decide, by decide⟩, rfl, nofun⟩, rfl⟩,
   rfl, by decide, ⟨_, rfl⟩, ⟨_, rfl⟩, _, rfl, nofun⟩

theorem witness_EnginesAreIndependent :
    (∃ es, stepEngine 1 [clean [], active [] [.readStatus]] = .next es) ∧ 0 ≠ 1 ∧
    [clean [], active [] [.readStatus]][1]? = some (active [] [.readStatus]) ∧
    (∀ s ∈ [clean [], active [] [.readStatus]], StateInv s) ∧
    (PortMap.mk (fun port => if port < 2 then some port else none) true).engineOf 1 = some 1 ∧
    (PortMap.mk (fun port => if port < 2 then some port else none) false).sharedReset = false ∧
    (∀ abandoned, Request.readStatus ≠ .reset abandoned) := by
  refine ⟨⟨_, rfl⟩, by decide, rfl, ?_, rfl, rfl, nofun⟩
  intro s hs
  simp only [List.mem_cons, List.not_mem_nil, or_false] at hs
  obtain rfl | rfl := hs
  · exact clean_inv _
  · exact ⟨active_inv _ _, rfl⟩

/-- A message of one byte more than an ABSORB can carry is split in two. -/
theorem witness_HashSplitsTheMessage (data : List Byte) (h : data.length = maxAbsorb + 1) :
    0 + 1 < (chunksOf maxAbsorb data.length data).length := by
  obtain ⟨b, bs, rfl⟩ : ∃ b bs, data = b :: bs := by
    cases data with
    | nil => simp at h
    | cons b bs => exact ⟨b, bs, rfl⟩
  obtain ⟨f, hf⟩ : ∃ f, bs.length = f + 1 := ⟨maxAbsorb - 1, by simp [maxAbsorb] at h ⊢; omega⟩
  obtain ⟨c, cs, hc⟩ : ∃ c cs, (b :: bs).drop maxAbsorb = c :: cs := by
    cases hd : (b :: bs).drop maxAbsorb with
    | nil => have := congrArg List.length hd; simp at this h; omega
    | cons c cs => exact ⟨c, cs, rfl⟩
  rw [List.length_cons, hf, chunksOf, hc, chunksOf]
  simp

theorem witness_AssembledLinesAreTheCommands :
    [0x61#8].length ≤ maxAbsorb ∧ (iv.toList.take 7).length = 7 ∧ iv.toList.length = 8 ∧ countingBlock.length = 32 := by
  decide

end Sys2Proof.Tests
end

section
/-! PROOFS. Progress (00_scope R13, 40_word_packer R101, 60_exceptions R267): INIT, the diagnostic commands and every
rejection give a next state wherever STATUS is readable; ABSORB and FINALIZE, and so every step, where the engine's
invariant holds. -/

namespace Sys2Proof.Machine

/-! ## Sequencing, the end of a transaction, and the checks before a command -/

theorem withValue_exists_next {α : Type} {r : Except Fault α} {v : α} {k : α → Result} (hr : r = .ok v)
    (hk : ∃ t, k v = .next t) : ∃ t, withValue r k = .next t := by
  rwa [hr, withValue_ok]

theorem andThen_exists_next {r : Result} {s : State} {k : State → Result} (hr : r = .next s)
    (hk : ∃ t, k s = .next t) : ∃ t, andThen r k = .next t := by
  rwa [hr, andThen_next]

theorem CompletesWith.exists_next {r : Result} {s : State} {response : List Byte} (h : CompletesWith r s response) :
    ∃ t, r = .next t := by
  obtain ⟨st, -, hr⟩ := h
  exact ⟨_, hr⟩

theorem succeed_exists_next {s : State} (response : List Byte) (h : Readable s) : ∃ t, succeed response s = .next t :=
  (succeed_completes response h).exists_next

theorem reject_exists_next {s : State} (e : ErrCode) (h : Readable s) : ∃ t, reject e s = .next t :=
  CompletesWith.exists_next (reject_rejects e h)

/-- Behind the payload check, the command proper may take the length for granted. -/
theorem requirePayload_exists_next {len : Nat} {s : State} {k : Result} (h : Readable s)
    (hk : s.payload.length = len → ∃ t, k = .next t) : ∃ t, requirePayload len s k = .next t := by
  by_cases hl : s.payload.length = len
  · rw [requirePayload_of_length hl]; exact hk hl
  · rw [requirePayload_of_ne hl]; exact reject_exists_next _ h

/-- Behind the phase check, the command proper may take ACTIVE for granted. -/
theorem requireActive_exists_next {s : State} {k : Result} (h : Readable s)
    (hk : s.phase = .active → ∃ t, k = .next t) : ∃ t, requireActive s k = .next t := by
  by_cases hp : s.phase = .active
  · rw [requireActive_of_active hp]; exact hk hp
  · rw [requireActive_of_ne hp]; exact reject_exists_next _ h

/-! ## The streaming commands -/

/-- The whole blocks of a byte sequence are always there to be compressed: no PACK meets a short block. -/
theorem compressBlocks_whole {bytes : List Byte} {s : State} {n : PassCount} {a : Vector Word 8}
    (hn : s.cfgPasses = some n) (ha : s.acc = some a) (ht : s.t = none) :
    compressBlocks (bytes.length / blockBytes) bytes s =
      .next { s with
        acc := some (compressAll n (bytes.length / blockBytes) a bytes)
        blk := lastBlock (bytes.length / blockBytes) bytes s.blk } :=
  compressBlocks_of_some hn ha (Nat.mul_div_le bytes.length blockBytes) ht

theorem execInit_exists_next {s : State} (passes : BitVec 8) (width : BitVec 16) (h : Readable s) :
    ∃ t, execInit passes width s = .next t := by
  refine requirePayload_exists_next h fun _ => ?_
  split
  · next n w _ _ => exact succeed_exists_next _ (.inr ⟨n, w, rfl, rfl⟩)
  · exact reject_exists_next _ h

theorem absorbPayload_exists_next {s : State} (len : BitVec 24) (h : EngineInv s) (hp : s.phase = .active) :
    ∃ t, absorbPayload len s = .next t := by
  obtain ⟨n, w, a, c, carry, hn, hw, ha, hc, hcarry, -, -⟩ := h.active hp
  obtain ⟨-, ht, -⟩ := h
  refine withValue_exists_next (readElement_eq_ok.2 hc) ?_
  refine withValue_exists_next (readElement_eq_ok.2 hcarry) ?_
  refine andThen_exists_next (compressBlocks_whole hn ha ht) ?_
  exact succeed_exists_next _ (.inr ⟨n, w, hn, hw⟩)

theorem finalizeMessage_exists_next {s : State} (h : EngineInv s) (hp : s.phase = .active) :
    ∃ t, finalizeMessage s = .next t := by
  obtain ⟨n, w, a, c, carry, hn, hw, ha, hc, hcarry, -, -⟩ := h.active hp
  obtain ⟨-, ht, -⟩ := h
  refine withValue_exists_next (readElement_eq_ok.2 hn) ?_
  refine withValue_exists_next (readElement_eq_ok.2 hw) ?_
  refine withValue_exists_next (readElement_eq_ok.2 hcarry) ?_
  refine withValue_exists_next (readElement_eq_ok.2 hc) ?_
  refine andThen_exists_next (compressBlocks_whole hn ha ht) ?_
  refine withValue_exists_next (readElement_some ..) ?_
  exact succeed_exists_next _ (.inr ⟨n, w, hn, hw⟩)

/-! ## The diagnostic commands

A payload of the length checked packs into the operands, so PACKING is not reached. -/

theorem execDiagF_exists_next {s : State} (k : PassIndex) (h : Readable s) : ∃ t, execDiagF k s = .next t :=
  requirePayload_exists_next h fun hl => withValue_exists_next (packVector_of_length hl) (succeed_exists_next _ h)

theorem execDiagStep_exists_next {s : State} (n : PassCount) (p : PassIndex) (i : Fin 32) (h : Readable s) :
    ∃ t, execDiagStep n p i s = .next t := by
  unfold execDiagStep
  split
  · exact reject_exists_next _ h
  · exact requirePayload_exists_next h fun hl =>
      withValue_exists_next (blockOperands_of_length hl) (succeed_exists_next _ h)

theorem execDiagCompress_exists_next {s : State} (n : PassCount) (h : Readable s) :
    ∃ t, execDiagCompress n s = .next t :=
  requirePayload_exists_next h fun hl => withValue_exists_next (blockOperands_of_length hl) (succeed_exists_next _ h)

theorem execDiagFold_exists_next {s : State} (w : Width) (h : Readable s) : ∃ t, execDiagFold w s = .next t :=
  requirePayload_exists_next h fun hl => withValue_exists_next (packVector_of_length hl) (succeed_exists_next _ h)

/-! ## Every command, every transaction -/

theorem exec_exists_next {s : State} (i : Instr) (h : EngineInv s) : ∃ t, exec i s = .next t := by
  have hr := h.readable
  cases i with
  | init passes width => exact execInit_exists_next passes width hr
  | absorb len =>
    exact requirePayload_exists_next hr fun _ => requireActive_exists_next hr fun hp => absorbPayload_exists_next len h hp
  | finalize =>
    exact requirePayload_exists_next hr fun _ => requireActive_exists_next hr fun hp => finalizeMessage_exists_next h hp
  | diagF k => exact execDiagF_exists_next k hr
  | diagStep n p i => exact execDiagStep_exists_next n p i hr
  | diagCompress n => exact execDiagCompress_exists_next n hr
  | diagFold w => exact execDiagFold_exists_next w hr

/-- The invariant speaks of the engine's elements only: what stands on the link may change. -/
theorem EngineInv.of_link {s : State} (h : EngineInv s) (inbox : List Request) (payload : List Byte)
    (answers : List Answer) : EngineInv { s with inbox := inbox, payload := payload, answers := answers } := h

theorem perform_exists_next {s : State} (x : Transaction) (h : EngineInv s) : ∃ t, perform x s = .next t := by
  obtain ⟨i, -, hx⟩ | ⟨e, -, hx⟩ := perform_cases x s
  · rw [hx]; exact exec_exists_next i (h.of_link s.inbox x.payload s.answers)
  · rw [hx]; exact reject_exists_next _ h.readable

theorem answerStatus_exists_next {s : State} (h : Readable s) : ∃ t, answerStatus s = .next t := by
  obtain ⟨st, hst⟩ := statusOf_readable h
  exact withValue_exists_next hst ⟨_, rfl⟩

theorem serve_exists_next {s : State} (r : Request) (h : EngineInv s) : ∃ t, serve r s = .next t := by
  cases r with
  | transaction x => exact perform_exists_next x h
  | readStatus => exact answerStatus_exists_next h.readable
  | reset abandoned => exact ⟨_, rfl⟩

/-- Settles O4, over the next request: every command finds the elements it reads, since the phase check admits ABSORB and
FINALIZE in ACTIVE only, and the packer the lengths it needs, since the payload check comes first. -/
theorem everyStepGivesANextState : Obligations.EveryStepGivesANextState := by
  rintro s ⟨h, -⟩
  unfold step serveNext
  split
  · exact ⟨s, rfl⟩
  · next r rest _ => exact serve_exists_next r (h.of_link rest s.payload s.answers)

end Sys2Proof.Machine
end

section
/-! PROOFS. What a transaction leaves behind, and the engine's invariant (10_state R22 to R34, 60_exceptions R262 and
R267): a command that gives a next state is rejected, which writes LAST_ERR and ERR_STICKY only, or it succeeds with its
effect. The frame of the rejection and of each effect gives the transitions of PHASE, the writes of the configuration and
of ERR_STICKY, and that every step keeps `StateInv`. -/

namespace Sys2Proof.Machine

/-! ## The two ways a transaction ends -/

/-- `t` is `s` rejected with some code and answered (60_exceptions R262). PACKING is no such code (R265). -/
def Rejected (s t : State) : Prop :=
  ∃ e st, e ≠ .none ∧ e ≠ .packing ∧ t = answered { s with lastErr := e, errSticky := true } st []

/-- `t` is what the effect of command `i` leaves of `s`, answered with LAST_ERR NONE (60_exceptions R267). -/
def Succeeded (i : Instr) (s t : State) : Prop :=
  ∃ s' st response, s.payload.length = payloadLength i ∧ Effect i s s' response ∧
    t = answered { s' with lastErr := .none } st response

theorem Rejected.of_reject {e : ErrCode} {s t : State} (h : reject e s = .next t) (h0 : e ≠ .none)
    (h3 : e ≠ .packing) : Rejected s t := by
  obtain ⟨st, -, rfl⟩ := reject_eq_next.1 h
  exact ⟨e, st, h0, h3, rfl⟩

theorem Cause.code {i : Instr} {s : State} {e : ErrCode} (h : Cause i s e) : e ≠ .none ∧ e ≠ .packing := by
  obtain rfl | ⟨rfl, -⟩ | ⟨rfl, -⟩ := h <;> decide

theorem exec_rejected_or_succeeded {i : Instr} {s t : State} (h : exec i s = .next t) :
    Rejected s t ∨ Succeeded i s t := by
  obtain ⟨e, hc, h⟩ | ⟨hl, s', response, he, h⟩ := exec_eq_next h
  · exact .inl (.of_reject h hc.code.1 hc.code.2)
  · obtain ⟨st, -, ht⟩ := succeed_eq_next.1 h
    exact .inr ⟨s', st, response, hl, he, ht⟩

theorem perform_of_illegal {x : Transaction} {e : Illegal} {s t : State} (hd : decode x.cmd = .error e)
    (h : perform x s = .next t) : Rejected s t := by
  rw [perform, hd] at h
  exact .of_reject h nofun nofun

/-- A transaction that gives a next state is rejected, or its word decodes to a command that succeeds on its payload. -/
theorem perform_rejected_or_succeeded {x : Transaction} {s t : State} (h : perform x s = .next t) :
    Rejected { s with payload := x.payload } t ∨ ∃ i, Succeeded i { s with payload := x.payload } t := by
  obtain ⟨i, -, hx⟩ | ⟨e, hd, -⟩ := perform_cases x s
  · exact (exec_rejected_or_succeeded (hx ▸ h)).imp_right fun hs => ⟨i, hs⟩
  · exact .inl (perform_of_illegal hd h)

/-! ## What a rejection leaves -/

theorem Rejected.lastErr_ne_none {s t : State} (h : Rejected s t) : t.lastErr ≠ .none := by
  obtain ⟨e, st, h0, -, rfl⟩ := h
  exact h0

theorem Rejected.errSticky {s t : State} (h : Rejected s t) : t.errSticky = true := by
  obtain ⟨e, st, -, -, rfl⟩ := h
  rfl

theorem Rejected.phase {s t : State} (h : Rejected s t) : t.phase = s.phase := by
  obtain ⟨e, st, -, -, rfl⟩ := h
  rfl

theorem Rejected.config {s t : State} (h : Rejected s t) : t.cfgPasses = s.cfgPasses ∧ t.cfgWidth = s.cfgWidth := by
  obtain ⟨e, st, -, -, rfl⟩ := h
  exact ⟨rfl, rfl⟩

theorem Rejected.stateInv {s t : State} (h : Rejected s t) (hs : EngineInv s) : StateInv t := by
  obtain ⟨e, st, -, h3, rfl⟩ := h
  obtain ⟨hp, ht, -⟩ := hs
  exact ⟨⟨hp, ht, h3⟩, rfl⟩

/-! ## What a success leaves -/

/-- The elements each kind of command writes when it succeeds: INIT and FINALIZE set up and clear a computation, ABSORB
writes the computation's elements, the diagnostic commands none (43_streaming R190, R191, R196; 44_diagnostic R240). -/
theorem Effect.frame {i : Instr} {s s' : State} {response : List Byte} (h : Effect i s s' response) :
    (∃ passes width n w, i = .init passes width ∧ passes.toNat = n.toNat ∧ width.toNat = w.bits ∧
      s' = initialised n w s) ∨
    (∃ len, i = .absorb len ∧
      s' = { s with acc := s'.acc, bitcnt := s'.bitcnt, carry := s'.carry, blk := s'.blk, t := s'.t }) ∨
    (i = .finalize ∧ s.phase = .active ∧ s' = cleared s) ∨
    (isDiagnostic i = true ∧ s' = s) := by
  cases i with
  | init passes width =>
    obtain ⟨-, n, w, hn, hw, hs⟩ := h
    exact .inl ⟨passes, width, n, w, rfl, hn, hw, hs⟩
  | absorb len =>
    obtain ⟨-, -, c, carry, s1, -, -, h1, rfl⟩ := h
    have e := compressBlocks_frame h1
    refine .inr (.inl ⟨len, rfl, ?_⟩)
    rw [e]
  | finalize =>
    obtain ⟨hp, hs⟩ := h
    exact .inr (.inr (.inl ⟨rfl, hp, hs⟩))
  | diagF k => exact .inr (.inr (.inr ⟨rfl, h.1⟩))
  | diagStep n p k => exact .inr (.inr (.inr ⟨rfl, h.1⟩))
  | diagCompress n => exact .inr (.inr (.inr ⟨rfl, h.1⟩))
  | diagFold w => exact .inr (.inr (.inr ⟨rfl, h.1⟩))

theorem Succeeded.lastErr {i : Instr} {s t : State} (h : Succeeded i s t) : t.lastErr = .none := by
  obtain ⟨s', st, response, -, -, rfl⟩ := h
  rfl

theorem Succeeded.errSticky {i : Instr} {s t : State} (h : Succeeded i s t) : t.errSticky = s.errSticky := by
  obtain ⟨s', st, response, -, he, rfl⟩ := h
  show s'.errSticky = s.errSticky
  obtain ⟨_, _, n, w, -, -, -, rfl⟩ | ⟨len, -, hs⟩ | ⟨-, -, rfl⟩ | ⟨-, rfl⟩ := he.frame
  · rfl
  · rw [hs]
  · rfl
  · rfl

theorem Succeeded.init_phase {passes : BitVec 8} {width : BitVec 16} {s t : State}
    (h : Succeeded (.init passes width) s t) : t.phase = .active := by
  obtain ⟨s', st, response, -, ⟨-, n, w, -, -, rfl⟩, rfl⟩ := h
  rfl

theorem Succeeded.finalize_phase {s t : State} (h : Succeeded .finalize s t) :
    s.phase = .active ∧ t.phase = .finalized := by
  obtain ⟨s', st, response, -, ⟨hp, rfl⟩, rfl⟩ := h
  exact ⟨hp, rfl⟩

theorem Succeeded.phase_of_other {i : Instr} {s t : State} (h : Succeeded i s t)
    (hi : ∀ passes width, i ≠ .init passes width) (hf : i ≠ .finalize) : t.phase = s.phase := by
  obtain ⟨s', st, response, -, he, rfl⟩ := h
  show s'.phase = s.phase
  obtain ⟨passes, width, _, _, hin, -⟩ | ⟨len, -, hs⟩ | ⟨hfi, -⟩ | ⟨-, rfl⟩ := he.frame
  · exact absurd hin (hi passes width)
  · rw [hs]
  · exact absurd hfi hf
  · rfl

theorem Succeeded.config {i : Instr} {s t : State} (h : Succeeded i s t) :
    (t.cfgPasses = s.cfgPasses ∧ t.cfgWidth = s.cfgWidth) ∨
    ∃ (passes : BitVec 8) (width : BitVec 16) (n : PassCount) (w : Width), i = .init passes width ∧
      t.lastErr = .none ∧ passes.toNat = n.toNat ∧ width.toNat = w.bits ∧
      t.cfgPasses = some n ∧ t.cfgWidth = some w := by
  obtain ⟨s', st, response, -, he, rfl⟩ := h
  obtain ⟨passes, width, n, w, hi, hn, hw, rfl⟩ | ⟨len, -, hs⟩ | ⟨-, -, rfl⟩ | ⟨-, rfl⟩ := he.frame
  · exact .inr ⟨passes, width, n, w, hi, rfl, hn, hw, rfl, rfl⟩
  · rw [hs]; exact .inl ⟨rfl, rfl⟩
  · exact .inl ⟨rfl, rfl⟩
  · exact .inl ⟨rfl, rfl⟩

/-! ## The invariant -/

theorem initialised_engineInv (n : PassCount) (w : Width) {s : State} (h : s.lastErr ≠ .packing) :
    EngineInv (initialised n w s) :=
  ⟨⟨n, w, iv, 0#64, [], rfl, rfl, rfl, rfl, rfl, by decide, by decide⟩, rfl, h⟩

theorem cleared_engineInv {s : State} (h : EngineInv s) (hp : s.phase = .active) : EngineInv (cleared s) := by
  obtain ⟨n, w, _, _, _, hn, hw, -⟩ := h.active hp
  obtain ⟨-, -, he⟩ := h
  exact ⟨⟨n, w, hn, hw, rfl, rfl, rfl, rfl⟩, rfl, he⟩

theorem resetEngine_stateInv (s : State) : StateInv (resetEngine s) :=
  ⟨⟨⟨rfl, rfl, rfl, rfl, rfl, rfl⟩, rfl, nofun⟩, rfl⟩

/-- In bytes modulo a block, BITCNT counts on by LEN (10_state R30): its wrap at 2^64 is a multiple of 8 · 128. -/
theorem addBits_bytes_mod (c : DWord) (len : BitVec 24) :
    (addBits c len >>> 3).toNat % 128 = ((c >>> 3).toNat + len.toNat) % 128 := by
  have hl := len.isLt
  simp only [addBits, BitVec.toNat_ushiftRight, BitVec.toNat_add, BitVec.toNat_mul, BitVec.toNat_setWidth,
    BitVec.toNat_ofNat, Nat.shiftRight_eq_div_pow]
  omega

/-- What stays in CARRY when the whole blocks are gone. -/
theorem length_drop_blocks (buf : List Byte) :
    (buf.drop (blockBytes * (buf.length / blockBytes))).length = buf.length % 128 := by
  rw [List.length_drop, blockBytes]
  omega

theorem absorb_effect_engineInv {len : BitVec 24} {s s' : State} {response : List Byte} (h : EngineInv s)
    (hl : s.payload.length = len.toNat) (he : Effect (.absorb len) s s' response) : EngineInv s' := by
  obtain ⟨-, hp, c, carry, s1, hc, hcarry, h1, rfl⟩ := he
  obtain ⟨n, w, a, c', carry', hn, hw, ha, hc', hcarry', -, hmod⟩ := h.active hp
  obtain ⟨-, ht, herr⟩ := h
  obtain rfl : c = c' := Option.some.inj (hc.symm.trans hc')
  obtain rfl : carry = carry' := Option.some.inj (hcarry.symm.trans hcarry')
  rw [compressBlocks_whole (s := { s with bitcnt := some (addBits c len) }) hn ha ht] at h1
  cases h1
  have hrest := length_drop_blocks (carry ++ s.payload)
  have hcount := addBits_bytes_mod c len
  have hbuf : (carry ++ s.payload).length = carry.length + len.toNat := by rw [List.length_append, hl]
  refine ⟨?_, ht, herr⟩
  simp only [PhaseInv, hp]
  exact ⟨n, w, _, _, _, hn, hw, rfl, rfl, rfl, by omega, by omega⟩

theorem Effect.engineInv {i : Instr} {s s' : State} {response : List Byte} (h : EngineInv s)
    (hl : s.payload.length = payloadLength i) (he : Effect i s s' response) : EngineInv s' := by
  obtain ⟨_, _, n, w, -, -, -, rfl⟩ | ⟨len, rfl, -⟩ | ⟨-, hp, rfl⟩ | ⟨-, rfl⟩ := he.frame
  · obtain ⟨-, -, herr⟩ := h
    exact initialised_engineInv n w herr
  · exact absorb_effect_engineInv h hl he
  · exact cleared_engineInv h hp
  · exact h

theorem Succeeded.stateInv {i : Instr} {s t : State} (h : Succeeded i s t) (hs : EngineInv s) : StateInv t := by
  obtain ⟨s', st, response, hl, he, rfl⟩ := h
  obtain ⟨hp, ht, -⟩ := he.engineInv hs hl
  exact ⟨⟨hp, ht, nofun⟩, rfl⟩

theorem perform_stateInv {x : Transaction} {s t : State} (hs : EngineInv s) (h : perform x s = .next t) :
    StateInv t := by
  have hs' : EngineInv { s with payload := x.payload } := hs.of_link s.inbox x.payload s.answers
  obtain hr | ⟨i, hi⟩ := perform_rejected_or_succeeded h
  · exact hr.stateInv hs'
  · exact hi.stateInv hs'

/-- Settles O3, over what a step can be: a rejection writes STATUS only, each effect keeps the invariant (ABSORB's by
`addBits_bytes_mod`), a read of STATUS writes the link only, and a reset starts over. -/
theorem stepKeepsInvariant : Obligations.StepKeepsInvariant := by
  rintro s t ⟨hs, hpay⟩ h
  obtain ⟨-, rfl⟩ | ⟨x, rest, -, h⟩ | ⟨rest, st, -, -, rfl⟩ | ⟨_, rest, -, rfl⟩ := step_cases h
  · exact ⟨hs, hpay⟩
  · exact perform_stateInv (hs.of_link rest s.payload s.answers) h
  · exact ⟨hs.of_link rest s.payload _, hpay⟩
  · exact resetEngine_stateInv _

/-! ## ERR_STICKY, PHASE and the configuration -/

theorem step_of_reset {s : State} {abandoned : Option Transaction} {rest : List Request}
    (h : s.inbox = .reset abandoned :: rest) : step s = .next (resetEngine { s with inbox := rest }) := by
  simp only [step, serveNext, h, serve]

theorem perform_keeps_errSticky {x : Transaction} {s t : State} (h : perform x s = .next t)
    (hs : s.errSticky = true) : t.errSticky = true := by
  obtain hr | ⟨i, hi⟩ := perform_rejected_or_succeeded h
  · exact hr.errSticky
  · exact hi.errSticky.trans hs

/-- Settles O12: a success leaves ERR_STICKY and LAST_ERR NONE, so LAST_ERR tells a rejection, and of the kinds of step
only a reset writes 0. -/
theorem stickyErrorUntilReset : Obligations.StickyErrorUntilReset := by
  refine ⟨fun x s t h he => ?_, fun s t h hs ht => ?_, fun s abandoned rest hi => ⟨_, step_of_reset hi, rfl⟩⟩
  · obtain hr | ⟨i, hi⟩ := perform_rejected_or_succeeded h
    · exact hr.errSticky
    · exact absurd hi.lastErr he
  · obtain ⟨-, rfl⟩ | ⟨x, rest, -, h⟩ | ⟨rest, st, -, -, rfl⟩ | ⟨abandoned, rest, hi, -⟩ := step_cases h
    · exact absurd (hs.symm.trans ht) nofun
    · exact absurd ((perform_keeps_errSticky h hs).symm.trans ht) nofun
    · exact absurd (hs.symm.trans ht) nofun
    · exact ⟨abandoned, by rw [hi]; rfl⟩

theorem exec_succeeded {i : Instr} {s t : State} (h : exec i s = .next t) (he : t.lastErr = .none) :
    Succeeded i s t :=
  (exec_rejected_or_succeeded h).resolve_left fun hr => hr.lastErr_ne_none he

theorem exec_rejected {i : Instr} {s t : State} (h : exec i s = .next t) (he : t.lastErr ≠ .none) : Rejected s t :=
  (exec_rejected_or_succeeded h).resolve_right fun hs => he hs.lastErr

/-- Settles O13, transition by transition: LAST_ERR tells a success from a rejection, and the frames of the two do the
rest. -/
theorem phaseTransitions : Obligations.PhaseTransitions := by
  refine ⟨?init, ?finalize, ?reset, ?rejected, ?other, ?illegal⟩
  case init => exact fun passes width s t h he => (exec_succeeded h he).init_phase
  case finalize => exact fun s t h he => (exec_succeeded h he).finalize_phase
  case reset =>
    intro s t abandoned rest hi h
    cases (step_of_reset hi).symm.trans h
    rfl
  case rejected => exact fun i s t h he => (exec_rejected h he).phase
  case other =>
    intro i s t hi hf h
    obtain hr | hs := exec_rejected_or_succeeded h
    · exact hr.phase
    · exact hs.phase_of_other hi hf
  case illegal => exact fun x e s t hd h => (perform_of_illegal hd h).phase

/-- Settles O14: a rejection leaves the configuration, and so does every effect but INIT's. -/
theorem onlyInitWritesConfiguration : Obligations.OnlyInitWritesConfiguration := by
  intro i s t h
  obtain hr | hs := exec_rejected_or_succeeded h
  · exact .inl hr.config
  · exact hs.config

end Sys2Proof.Machine
end

section
/-! PROOFS. The STATUS word (10_state R32): its fields in every state that shows one, and that a host reads from it what
the engine holds (93_implementation_defined I4). -/

namespace Sys2Proof

theorem PassCount.toNat_lt (n : PassCount) : n.toNat < 8 := by cases n <;> decide

theorem Width.bits_lt (w : Width) : w.bits < 512 := by cases w <;> decide

end Sys2Proof

namespace Sys2Proof.Machine

theorem phaseCode_ne_three (ph : Phase) : phaseCode ph ≠ 3#2 := by cases ph <;> decide

@[simp] theorem phaseOf?_phaseCode (ph : Phase) : phaseOf? (phaseCode ph) = some ph := by cases ph <;> rfl

theorem errOf?_errCode {e : ErrCode} (h : e ≠ .packing) : errOf? (errCode e) = some e := by
  cases e with
  | packing => exact absurd rfl h
  | none | configuration | stateMisuse | illegalCommand => rfl

/-- Before the first INIT the two fields of the configuration read 0. -/
theorem statusWord_unconfigured_config (ph : Phase) (e : ErrCode) (sticky : Bool) :
    (statusWord ph e sticky 0 0).extractLsb' 8 3 = 0#3 ∧ (statusWord ph e sticky 0 0).extractLsb' 16 9 = 0#9 := by
  obtain ⟨-, -, -, -, -, -, hn, hw⟩ := statusWord_fields ph e sticky 0 0 (by decide) (by decide)
  exact ⟨BitVec.eq_of_toNat_eq hn, BitVec.eq_of_toNat_eq hw⟩

theorem viewStatus_unconfigured {e : ErrCode} (sticky : Bool) (he : e ≠ .packing) :
    viewStatus (statusWord .unconfigured e sticky 0 0) = some ⟨.unconfigured, e, sticky, none⟩ := by
  obtain ⟨hph, h2, herr, hst, h11, h25, -, -⟩ :=
    statusWord_fields .unconfigured e sticky 0 0 (by decide) (by decide)
  obtain ⟨hn, hw⟩ := statusWord_unconfigured_config .unconfigured e sticky
  simp only [viewStatus, hph, phaseOf?_phaseCode, herr, errOf?_errCode he, h2, h11, h25, hst, hn, hw, and_self, if_true]

theorem viewStatus_configured {ph : Phase} {e : ErrCode} (sticky : Bool) (n : PassCount) (w : Width)
    (hp : ph ≠ .unconfigured) (he : e ≠ .packing) :
    viewStatus (statusWord ph e sticky n.toNat w.bits) = some ⟨ph, e, sticky, some (n, w)⟩ := by
  obtain ⟨hph, h2, herr, hst, h11, h25, hn, hw⟩ := statusWord_fields ph e sticky _ _ n.toNat_lt w.bits_lt
  cases ph with
  | unconfigured => exact absurd rfl hp
  | active | finalized =>
    simp only [viewStatus, hph, phaseOf?_phaseCode, herr, errOf?_errCode he, h2, h11, h25, hst, hn, hw, and_self,
      if_true, PassCount.ofNat?_toNat, Width.ofNat?_bits]

/-- A read of STATUS answers with the word and leaves the engine as it was. -/
theorem step_of_readStatus {s : State} {rest : List Request} {st : Word} (hi : s.inbox = .readStatus :: rest)
    (hst : statusOf s = .ok st) :
    step s = .next { s with inbox := rest, answers := s.answers ++ [.status st] } := by
  have hst' : statusOf { s with inbox := rest } = .ok st := hst
  simp only [step, serveNext, hi, serve, answerStatus, hst', withValue_ok]

/-- Settles O10: the fields are those of `statusWord`, whose two forms `statusOf_eq_ok` tells apart by PHASE. -/
theorem statusRegisterLayout : Obligations.StatusRegisterLayout := by
  refine ⟨fun s st h => ?layout, fun s rest hs hi => ?read, ?ruleExample⟩
  case layout =>
    obtain ⟨hp, rfl⟩ | ⟨hp, n, w, hn, hw, rfl⟩ := statusOf_eq_ok h
    · obtain ⟨hph, h2, herr, hst, h11, h25, -, -⟩ :=
        statusWord_fields .unconfigured s.lastErr s.errSticky 0 0 (by decide) (by decide)
      exact ⟨hp ▸ hph, hph ▸ phaseCode_ne_three _, h2, herr, hst, h11, h25,
        fun _ => statusWord_unconfigured_config .., fun hne => absurd hp hne⟩
    · obtain ⟨hph, h2, herr, hst, h11, h25, hn', hw'⟩ :=
        statusWord_fields s.phase s.lastErr s.errSticky _ _ n.toNat_lt w.bits_lt
      exact ⟨hph, hph ▸ phaseCode_ne_three _, h2, herr, hst, h11, h25, fun hun => absurd hun hp,
        fun _ => ⟨n, w, hn, hw, hn', hw'⟩⟩
  case read =>
    obtain ⟨st, hst⟩ := statusOf_readable hs.readable
    exact ⟨st, hst, step_of_readStatus hi hst⟩
  case ruleExample => exact ⟨_, rfl, by decide⟩

/-- Settles O11: LAST_ERR is not PACKING, and the elements that hold a value are those STATUS shows. -/
theorem hostReadsStatusBack : Obligations.HostReadsStatusBack := by
  rintro s st ⟨hinv, -, herr⟩ h
  obtain ⟨hp, rfl⟩ | ⟨hp, n, w, hn, hw, rfl⟩ := statusOf_eq_ok h
  · simp only [PhaseInv, hp] at hinv
    obtain ⟨hn, -⟩ := hinv
    rw [viewStatus_unconfigured _ herr, hp, hn]
    rfl
  · rw [viewStatus_configured _ n w hp herr, hn, hw]
    rfl

end Sys2Proof.Machine
end

section
/-! PROOFS. The order of service (20_memory R57, R59): a transaction takes nothing from the inbox and adds one answer, since
its effect never touches the link. -/

namespace Sys2Proof.Machine

/-- No effect of a command touches the requests or the answers: the answer is given after the effect. -/
theorem Effect.link {i : Instr} {s s' : State} {response : List Byte} (h : Effect i s s' response) :
    s'.inbox = s.inbox ∧ s'.answers = s.answers := by
  obtain ⟨_, _, n, w, -, -, -, rfl⟩ | ⟨len, -, hs⟩ | ⟨-, -, rfl⟩ | ⟨-, rfl⟩ := h.frame
  · exact ⟨rfl, rfl⟩
  · rw [hs]; exact ⟨rfl, rfl⟩
  · exact ⟨rfl, rfl⟩
  · exact ⟨rfl, rfl⟩

theorem Rejected.link {s t : State} (h : Rejected s t) :
    t.inbox = s.inbox ∧ ∃ answer, t.answers = s.answers ++ [answer] := by
  obtain ⟨e, st, -, -, rfl⟩ := h
  exact ⟨rfl, _, rfl⟩

theorem Succeeded.link {i : Instr} {s t : State} (h : Succeeded i s t) :
    t.inbox = s.inbox ∧ ∃ answer, t.answers = s.answers ++ [answer] := by
  obtain ⟨s', st, response, -, he, rfl⟩ := h
  obtain ⟨hin, hans⟩ := he.link
  exact ⟨hin, .done st response, by rw [answered_answers, hans]⟩

theorem perform_link {x : Transaction} {s t : State} (h : perform x s = .next t) :
    t.inbox = s.inbox ∧ ∃ answer, t.answers = s.answers ++ [answer] := by
  obtain hr | ⟨i, hi⟩ := perform_rejected_or_succeeded h
  · exact hr.link
  · exact hi.link

/-- Settles O5, over what a step can be: a transaction and a read of STATUS give one answer each, an idle step and a reset
none. -/
theorem requestsServedInOrder : Obligations.RequestsServedInOrder := by
  intro s t h
  obtain ⟨hi, rfl⟩ | ⟨x, rest, hi, h⟩ | ⟨rest, st, hi, -, rfl⟩ | ⟨_, rest, hi, rfl⟩ := step_cases h
  · exact ⟨by rw [hi, List.tail_nil], [], (List.append_nil _).symm, Nat.zero_le 1⟩
  · obtain ⟨hin, answer, hans⟩ := perform_link h
    exact ⟨by rw [hin, hi, List.tail_cons], [answer], hans, Nat.le_refl 1⟩
  · exact ⟨by rw [hi, List.tail_cons], [.status st], rfl, Nat.le_refl 1⟩
  · exact ⟨by rw [hi, List.tail_cons, resetEngine_inbox], [], (List.append_nil _).symm, Nat.zero_le 1⟩

end Sys2Proof.Machine
end

section
/-! PROOFS. Platforms (20_memory R60, 60_exceptions R276): a step of an engine replaces that engine alone, and so does the
delivery of a request that is no shared reset. -/

namespace Sys2Proof.Machine

/-! ## The step of one engine -/

theorem stepEngine_of_none {k : Nat} {es : List State} (h : es[k]? = none) : stepEngine k es = .next es := by
  simp only [stepEngine, h]

theorem stepEngine_of_next {k : Nat} {es : List State} {s s' : State} (h : es[k]? = some s) (hs : step s = .next s') :
    stepEngine k es = .next (es.set k s') := by
  simp only [stepEngine, h, hs]

/-- A step of an engine does nothing, there being no such engine, or it puts the engine's own next state in its place. -/
theorem stepEngine_cases {k : Nat} {es es' : List State} (h : stepEngine k es = .next es') :
    (es[k]? = none ∧ es' = es) ∨ ∃ s s', es[k]? = some s ∧ step s = .next s' ∧ es' = es.set k s' := by
  unfold stepEngine at h
  split at h
  · next hk => cases h; exact .inl ⟨hk, rfl⟩
  · next s hk =>
    split at h
    · next s' hs => cases h; exact .inr ⟨s, s', hk, hs, rfl⟩
    · cases h
    · cases h

theorem stepEngine_length {k : Nat} {es es' : List State} (h : stepEngine k es = .next es') :
    es'.length = es.length := by
  obtain ⟨-, rfl⟩ | ⟨s, s', -, -, rfl⟩ := stepEngine_cases h
  · rfl
  · exact List.length_set

theorem stepEngine_other {k j : Nat} {es es' : List State} (h : stepEngine k es = .next es') (hj : j ≠ k) :
    es'[j]? = es[j]? := by
  obtain ⟨-, rfl⟩ | ⟨s, s', -, -, rfl⟩ := stepEngine_cases h
  · rfl
  · exact List.getElem?_set_ne hj.symm

theorem stepEngine_self {k : Nat} {es es' : List State} {s : State} (h : stepEngine k es = .next es')
    (hk : es[k]? = some s) : ∃ s', step s = .next s' ∧ es'[k]? = some s' := by
  obtain ⟨hn, -⟩ | ⟨s₁, s', hk₁, hs, rfl⟩ := stepEngine_cases h
  · exact absurd (hn.symm.trans hk) nofun
  · obtain rfl : s₁ = s := Option.some.inj (hk₁.symm.trans hk)
    obtain ⟨hlt, -⟩ := List.getElem?_eq_some_iff.1 hk
    exact ⟨s', hs, List.getElem?_set_self hlt⟩

theorem stepEngine_exists_next (k : Nat) {es : List State} (h : ∀ s ∈ es, StateInv s) :
    ∃ es', stepEngine k es = .next es' := by
  cases hk : es[k]? with
  | none => exact ⟨es, stepEngine_of_none hk⟩
  | some s =>
    obtain ⟨s', hs⟩ := everyStepGivesANextState s (h s (List.mem_of_getElem? hk))
    exact ⟨_, stepEngine_of_next hk hs⟩

theorem stepEngine_stateInv {k : Nat} {es es' : List State} (h : ∀ s ∈ es, StateInv s)
    (hstep : stepEngine k es = .next es') : ∀ s ∈ es', StateInv s := by
  obtain ⟨-, rfl⟩ | ⟨s₁, s', hk, hs, rfl⟩ := stepEngine_cases hstep
  · exact h
  · intro s hmem
    obtain hold | rfl := List.mem_or_eq_of_mem_set hmem
    · exact h s hold
    · exact stepKeepsInvariant s₁ s (h s₁ (List.mem_of_getElem? hk)) hs

/-! ## Delivery -/

/-- A request other than a shared reset goes to the engine its port names. -/
theorem deliver_eq_modify {map : PortMap} {port k : Nat} {r : Request} (es : List State)
    (hport : map.engineOf port = some k) (hr : map.sharedReset = false ∨ ∀ abandoned, r ≠ .reset abandoned) :
    deliver map port r es = es.modify k (issue r) := by
  cases r with
  | transaction x => simp only [deliver, hport]
  | readStatus => simp only [deliver, hport]
  | reset abandoned =>
    have hshared : map.sharedReset = false := hr.resolve_right fun hne => hne abandoned rfl
    simp only [deliver, hport, hshared, Bool.false_eq_true, if_false]

/-- Settles O57: the step of an engine and the delivery of a request each write one place of the list of engines, and
progress and the invariant of one engine (O4, O3) carry over to the list. -/
theorem enginesAreIndependent : Obligations.EnginesAreIndependent := by
  refine ⟨?step, ?inv, ?deliver⟩
  case step =>
    exact fun k es es' h => ⟨stepEngine_length h, fun j => stepEngine_other h, fun s => stepEngine_self h⟩
  case inv =>
    intro k es hinv
    obtain ⟨es', h⟩ := stepEngine_exists_next k hinv
    exact ⟨es', h, stepEngine_stateInv hinv h⟩
  case deliver =>
    intro map port k r es hport hr j
    rw [deliver_eq_modify es hport hr]
    by_cases hj : j = k
    · rw [if_pos hj, hj, List.getElem?_modify_eq, Option.map_eq_map]
    · rw [if_neg hj, List.getElem?_modify_ne _ _ (Ne.symm hj)]

end Sys2Proof.Machine
end

section
/-! PROOFS. The decoder and the encoder (30_encoding R72 to R80, R84, R86): a word decodes to a command exactly when the
command is well formed, OP is its OP, and every field and every reserved bit of ARG is the command's; which is to be its
encoding. -/

namespace Sys2Proof

theorem PassIndex.toNat_lt (p : PassIndex) : p.toNat < 8 := by cases p <;> decide

/-! ## Parts of a word -/

theorem append_inj_iff {m n : Nat} {a a' : BitVec m} {b b' : BitVec n} : a ++ b = a' ++ b' ↔ a = a' ∧ b = b' := by
  constructor
  · intro h
    have hhi := congrArg (BitVec.extractLsb' n m) h
    have hlo := congrArg (BitVec.extractLsb' 0 n) h
    simp only [BitVec.extractLsb'_append_eq_left, BitVec.extractLsb'_append_eq_right] at hhi hlo
    exact ⟨hhi, hlo⟩
  · rintro ⟨rfl, rfl⟩; rfl

/-- A field is made of two parts exactly when each part stands at its own bits. -/
theorem extractLsb'_eq_append_iff {w lo m n : Nat} {x : BitVec w} {a : BitVec m} {b : BitVec n} :
    x.extractLsb' lo (m + n) = a ++ b ↔ x.extractLsb' (lo + n) m = a ∧ x.extractLsb' lo n = b := by
  rw [← BitVec.extractLsb'_append_extractLsb'_eq_extractLsb' rfl, append_inj_iff]

/-- A field holds a number exactly when it is the number's code, if the number fits. -/
theorem eq_ofNat_iff_toNat_eq {w v : Nat} {x : BitVec w} (h : v < 2 ^ w) : x = BitVec.ofNat w v ↔ x.toNat = v := by
  rw [BitVec.toNat_eq_nat, and_iff_right h]

/-! ## What a command's ARG looks like -/

/-- ARG, bits [23:0] (30_encoding R72). -/
def argField (cmd : Word) : BitVec 24 := cmd.extractLsb' 0 24

/-- The fields of ARG read the operands of the command, and its reserved bits are 0 (30_encoding R74 to R80, R84). -/
def HasFields (cmd : Word) : Instr → Prop
  | .init passes width => cmd.extractLsb' 8 16 = width ∧ cmd.extractLsb' 0 8 = passes
  | .absorb len => cmd.extractLsb' 0 24 = len
  | .finalize => cmd.extractLsb' 0 24 = 0#24
  | .diagF k => cmd.extractLsb' 3 21 = 0#21 ∧ (cmd.extractLsb' 0 3).toNat = k.toNat
  | .diagStep n p i =>
    (cmd.extractLsb' 13 11 = 0#11 ∧ cmd.extractLsb' 7 1 = 0#1 ∧ cmd.extractLsb' 3 1 = 0#1) ∧
    (cmd.extractLsb' 4 3).toNat = n.toNat ∧ (cmd.extractLsb' 0 3).toNat = p.toNat ∧ (cmd.extractLsb' 8 5).toFin = i
  | .diagCompress n => cmd.extractLsb' 3 21 = 0#21 ∧ (cmd.extractLsb' 0 3).toNat = n.toNat
  | .diagFold w => cmd.extractLsb' 0 8 = 0#8 ∧ (cmd.extractLsb' 8 16).toNat = w.bits

/-- The encoder's ARG is the one with the command's fields. -/
theorem argField_eq_argument_iff (cmd : Word) (i : Instr) : argField cmd = argument i ↔ HasFields cmd i := by
  cases i with
  | init passes width => exact extractLsb'_eq_append_iff (m := 16) (n := 8)
  | absorb len => exact Iff.rfl
  | finalize => exact Iff.rfl
  | diagF k =>
    rw [HasFields, ← eq_ofNat_iff_toNat_eq k.toNat_lt]
    exact extractLsb'_eq_append_iff (m := 21) (n := 3)
  | diagStep n p i =>
    have h5 : (cmd.extractLsb' 8 5).toFin = i ↔ cmd.extractLsb' 8 5 = BitVec.ofFin i :=
      ⟨fun h => h ▸ rfl, fun h => h ▸ rfl⟩
    have harg : argField cmd = argument (.diagStep n p i) ↔ _ := extractLsb'_eq_append_iff (m := 21) (n := 3)
    rw [harg, extractLsb'_eq_append_iff (m := 20) (n := 1), extractLsb'_eq_append_iff (m := 17) (n := 3),
      extractLsb'_eq_append_iff (m := 16) (n := 1), extractLsb'_eq_append_iff (m := 11) (n := 5),
      HasFields, h5, ← eq_ofNat_iff_toNat_eq n.toNat_lt, ← eq_ofNat_iff_toNat_eq p.toNat_lt]
    tauto
  | diagCompress n =>
    rw [HasFields, ← eq_ofNat_iff_toNat_eq n.toNat_lt]
    exact extractLsb'_eq_append_iff (m := 21) (n := 3)
  | diagFold w =>
    rw [HasFields, and_comm, ← eq_ofNat_iff_toNat_eq (w := 16) (w.bits_lt.trans (by decide))]
    exact extractLsb'_eq_append_iff (m := 16) (n := 8)

/-- A command's word is the one with its OP and its fields. -/
theorem eq_encode_iff (cmd : Word) (i : Instr) : cmd = encode i ↔ opField cmd = opcode i ∧ HasFields cmd i := by
  rw [← argField_eq_argument_iff]
  conv_lhs => rw [← BitVec.extractLsb'_eq_self (x := cmd)]
  exact extractLsb'_eq_append_iff (m := 8) (n := 24)

/-! ## The decoder, OP by OP -/

section
variable {cmd : Word}

theorem decode_of_init (h : opField cmd = 0x01#8) :
    decode cmd = .ok (.init (cmd.extractLsb' 0 8) (cmd.extractLsb' 8 16)) := by simp [decode, h]

theorem decode_of_absorb (h : opField cmd = 0x02#8) : decode cmd = .ok (.absorb (cmd.extractLsb' 0 24)) := by
  simp [decode, h]

theorem decode_of_finalize (h : opField cmd = 0x03#8) : decode cmd = decodeFinalize cmd := by simp [decode, h]

theorem decode_of_diagF (h : opField cmd = 0x10#8) : decode cmd = decodeDiagF cmd := by simp [decode, h]

theorem decode_of_diagStep (h : opField cmd = 0x11#8) : decode cmd = decodeDiagStep cmd := by simp [decode, h]

theorem decode_of_diagCompress (h : opField cmd = 0x12#8) : decode cmd = decodeDiagCompress cmd := by simp [decode, h]

theorem decode_of_diagFold (h : opField cmd = 0x13#8) : decode cmd = decodeDiagFold cmd := by simp [decode, h]

end

/-! ## The words that decode -/

section
variable {cmd : Word} {i : Instr}

theorem decodeFinalize_eq_ok_iff : decodeFinalize cmd = .ok i ↔ i = .finalize ∧ HasFields cmd .finalize := by
  constructor
  · intro h
    unfold decodeFinalize at h
    split at h
    · next hz => cases h; exact ⟨rfl, hz⟩
    · cases h
  · rintro ⟨rfl, hz⟩
    exact if_pos hz

theorem decodeDiagF_eq_ok_iff : decodeDiagF cmd = .ok i ↔ ∃ k, i = .diagF k ∧ HasFields cmd (.diagF k) := by
  constructor
  · intro h
    unfold decodeDiagF at h
    split at h
    · next hz =>
      split at h
      · next k hk => cases h; exact ⟨k, rfl, hz, PassIndex.ofNat?_eq_some.1 hk⟩
      · cases h
    · cases h
  · rintro ⟨k, rfl, hz, hk⟩
    rw [decodeDiagF, if_pos hz, hk, PassIndex.ofNat?_toNat]

theorem decodeDiagStep_eq_ok_iff : decodeDiagStep cmd = .ok i ↔
    ∃ n p j, i = .diagStep n p j ∧ passLegal n p = true ∧ HasFields cmd (.diagStep n p j) := by
  constructor
  · intro h
    unfold decodeDiagStep at h
    split at h
    · next hz =>
      split at h
      · next n p hn hp =>
        split at h
        · next hle =>
          cases h
          exact ⟨n, p, _, rfl, hle, hz, PassCount.ofNat?_eq_some.1 hn, PassIndex.ofNat?_eq_some.1 hp, rfl⟩
        · cases h
      · cases h
    · cases h
  · rintro ⟨n, p, j, rfl, hle, hz, hn, hp, hj⟩
    rw [decodeDiagStep, if_pos hz, hn, hp, hj, PassCount.ofNat?_toNat, PassIndex.ofNat?_toNat]
    exact if_pos hle

theorem decodeDiagCompress_eq_ok_iff :
    decodeDiagCompress cmd = .ok i ↔ ∃ n, i = .diagCompress n ∧ HasFields cmd (.diagCompress n) := by
  constructor
  · intro h
    unfold decodeDiagCompress at h
    split at h
    · next hz =>
      split at h
      · next n hn => cases h; exact ⟨n, rfl, hz, PassCount.ofNat?_eq_some.1 hn⟩
      · cases h
    · cases h
  · rintro ⟨n, rfl, hz, hn⟩
    rw [decodeDiagCompress, if_pos hz, hn, PassCount.ofNat?_toNat]

theorem decodeDiagFold_eq_ok_iff :
    decodeDiagFold cmd = .ok i ↔ ∃ w, i = .diagFold w ∧ HasFields cmd (.diagFold w) := by
  constructor
  · intro h
    unfold decodeDiagFold at h
    split at h
    · next hz =>
      split at h
      · next w hw => cases h; exact ⟨w, rfl, hz, Width.ofNat?_eq_some.1 hw⟩
      · cases h
    · cases h
  · rintro ⟨w, rfl, hz, hw⟩
    rw [decodeDiagFold, if_pos hz, hw, Width.ofNat?_bits]

/-- A word decodes to a command exactly when the command is well formed, OP is its OP, and ARG holds its fields. -/
theorem decode_eq_ok_iff :
    decode cmd = .ok i ↔ i.wellFormed = true ∧ opField cmd = opcode i ∧ HasFields cmd i := by
  constructor
  · intro h
    unfold decode at h
    split_ifs at h with hinit habsorb hfinalize hf hstep hcompress hfold
    · cases h; exact ⟨rfl, hinit, rfl, rfl⟩
    · cases h; exact ⟨rfl, habsorb, rfl⟩
    · obtain ⟨rfl, hfields⟩ := decodeFinalize_eq_ok_iff.1 h
      exact ⟨rfl, hfinalize, hfields⟩
    · obtain ⟨k, rfl, hfields⟩ := decodeDiagF_eq_ok_iff.1 h
      exact ⟨rfl, hf, hfields⟩
    · obtain ⟨n, p, j, rfl, hle, hfields⟩ := decodeDiagStep_eq_ok_iff.1 h
      exact ⟨hle, hstep, hfields⟩
    · obtain ⟨n, rfl, hfields⟩ := decodeDiagCompress_eq_ok_iff.1 h
      exact ⟨rfl, hcompress, hfields⟩
    · obtain ⟨w, rfl, hfields⟩ := decodeDiagFold_eq_ok_iff.1 h
      exact ⟨rfl, hfold, hfields⟩
  · rintro ⟨hwf, hop, hfields⟩
    cases i with
    | init passes width => obtain ⟨rfl, rfl⟩ := hfields; exact decode_of_init hop
    | absorb len => obtain rfl := hfields; exact decode_of_absorb hop
    | finalize => rw [decode_of_finalize hop, decodeFinalize_eq_ok_iff]; exact ⟨rfl, hfields⟩
    | diagF k => rw [decode_of_diagF hop, decodeDiagF_eq_ok_iff]; exact ⟨k, rfl, hfields⟩
    | diagStep n p j =>
      rw [decode_of_diagStep hop, decodeDiagStep_eq_ok_iff]; exact ⟨n, p, j, rfl, hwf, hfields⟩
    | diagCompress n => rw [decode_of_diagCompress hop, decodeDiagCompress_eq_ok_iff]; exact ⟨n, rfl, hfields⟩
    | diagFold w => rw [decode_of_diagFold hop, decodeDiagFold_eq_ok_iff]; exact ⟨w, rfl, hfields⟩

/-- The decoder and the encoder are inverse to each other on the well-formed commands. -/
theorem decode_eq_ok_iff_eq_encode : decode cmd = .ok i ↔ i.wellFormed = true ∧ cmd = encode i := by
  rw [decode_eq_ok_iff, eq_encode_iff]

end

/-- Settles O17: a command's own word has its OP and its fields, which is all the decoder asks of it. -/
theorem decodeOfEncode : Obligations.DecodeOfEncode := fun _ hwf => decode_eq_ok_iff_eq_encode.2 ⟨hwf, rfl⟩

/-- Settles O18: the OP and the fields the decoder has read leave no bit of the word open. -/
theorem decodedWordIsTheEncoding : Obligations.DecodedWordIsTheEncoding := by
  intro cmd i h
  obtain ⟨hwf, hcmd⟩ := decode_eq_ok_iff_eq_encode.1 h
  exact ⟨hwf, hcmd.symm⟩

/-- Settles O16: the decoder evaluated on the twelve words. -/
theorem sampleWordsDecode : Obligations.SampleWordsDecode := by
  unfold Obligations.SampleWordsDecode
  decide

end Sys2Proof
end

section
/-! PROOFS. What is rejected on sight (60_exceptions R263, R266): a word that selects no command, a payload of the wrong
length, an INIT with an illegal value, and the ill-formed DIAG_STEP; with the step of a transaction and the payload a word
requires. -/

namespace Sys2Proof

theorem PassCount.toNat_mem (n : PassCount) : n.toNat ∈ [3, 4, 5] := by cases n <;> decide

theorem PassIndex.toNat_pos (p : PassIndex) : 0 < p.toNat := by cases p <;> decide

theorem PassIndex.toNat_mem (p : PassIndex) : p.toNat ∈ [1, 2, 3, 4, 5] := by cases p <;> decide

theorem Width.bits_mem (w : Width) : w.bits ∈ [128, 160, 192, 224, 256] := by cases w <;> decide

end Sys2Proof

namespace Sys2Proof.Machine

/-! ## The step of a transaction -/

theorem step_of_transaction {s : State} {x : Transaction} {rest : List Request}
    (h : s.inbox = .transaction x :: rest) : step s = perform x { s with inbox := rest } := by
  simp only [step, serveNext, h, serve]

theorem perform_of_ok {x : Transaction} {i : Instr} (h : decode x.cmd = .ok i) (s : State) :
    perform x s = exec i { s with payload := x.payload } := by
  simp only [perform, h]

theorem perform_of_error {x : Transaction} {e : Illegal} (h : decode x.cmd = .error e) (s : State) :
    perform x s = reject .illegalCommand s := by
  simp only [perform, h]

/-- Settles O6: `step` takes the request from the inbox, and `perform` runs what its word decodes to. -/
theorem stepRunsDecodedCommand : Obligations.StepRunsDecodedCommand := by
  intro s x rest i hi hd
  rw [step_of_transaction hi, perform_of_ok hd]

/-! ## Words that select no command -/

/-- A transaction whose word selects no command is rejected, whatever its payload (60_exceptions R263 (a) and (b)). -/
theorem step_rejects_undecoded {s : State} {x : Transaction} {rest : List Request} {e : Illegal} (hs : StateInv s)
    (hi : s.inbox = .transaction x :: rest) (hd : decode x.cmd = .error e) :
    RejectedWith (step s) { s with inbox := rest } .illegalCommand := by
  obtain ⟨hs, -⟩ := hs
  rw [step_of_transaction hi, perform_of_error hd]
  exact reject_rejects _ (hs.of_link rest s.payload s.answers).readable

theorem decode_of_reserved {cmd : Word}
    (h : (opField cmd).toNat ∉ [0x01, 0x02, 0x03, 0x10, 0x11, 0x12, 0x13]) :
    decode cmd = .error .reservedOpcode := by
  have hne : ∀ op : BitVec 8, op.toNat ∈ [0x01, 0x02, 0x03, 0x10, 0x11, 0x12, 0x13] → opField cmd ≠ op :=
    fun op hop heq => h (heq ▸ hop)
  rw [decode, if_neg (hne _ (by decide)), if_neg (hne _ (by decide)), if_neg (hne _ (by decide)),
    if_neg (hne _ (by decide)), if_neg (hne _ (by decide)), if_neg (hne _ (by decide)), if_neg (hne _ (by decide))]

/-- Settles O19: the decoder has no case for the OP, and a step rejects what does not decode. -/
theorem reservedOpcodesRejected : Obligations.ReservedOpcodesRejected := by
  intro cmd hop
  have hd := decode_of_reserved hop
  exact ⟨hd, fun s payload rest hs hi => step_rejects_undecoded hs hi hd⟩

theorem getLsbD_of_extractLsb'_one {w k : Nat} {x : BitVec w} (h : x.extractLsb' k 1 = 0#1) :
    x.getLsbD k = false := by
  have hbit := congrArg (·.getLsbD 0) h
  simpa using hbit

/-- The fields of a command leave its OP's reserved bits 0 and its values legal (30_encoding R84). -/
theorem not_badArgument_of_ok {cmd : Word} {i : Instr} (hd : decode cmd = .ok i) : ¬ BadArgument cmd := by
  rintro (⟨hop, hz⟩ | ⟨hop, hbad⟩ | ⟨hop, hbad⟩ | ⟨hop, hbad⟩ | ⟨hop, hbad⟩)
  · obtain ⟨-, hfields⟩ := decodeFinalize_eq_ok_iff.1 (decode_of_finalize hop ▸ hd)
    exact hz hfields
  · obtain ⟨k, -, hz, hk⟩ := decodeDiagF_eq_ok_iff.1 (decode_of_diagF hop ▸ hd)
    exact hbad.elim (· hz) (· (hk ▸ k.toNat_mem))
  · obtain ⟨n, p, j, -, hle, ⟨h13, h7, h3⟩, hn, hp, -⟩ := decodeDiagStep_eq_ok_iff.1 (decode_of_diagStep hop ▸ hd)
    have hle : p.toNat ≤ n.toNat := of_decide_eq_true hle
    obtain hbad | hbad | hbad | hbad | hbad | hbad := hbad
    · exact hbad h13
    · exact absurd (getLsbD_of_extractLsb'_one h7) (by rw [hbad]; decide)
    · exact absurd (getLsbD_of_extractLsb'_one h3) (by rw [hbad]; decide)
    · exact hbad (hn ▸ n.toNat_mem)
    · exact p.toNat_pos.ne' (hp ▸ hbad)
    · exact hle.not_gt (hn ▸ hp ▸ hbad)
  · obtain ⟨n, -, hz, hn⟩ := decodeDiagCompress_eq_ok_iff.1 (decode_of_diagCompress hop ▸ hd)
    exact hbad.elim (· hz) (· (hn ▸ n.toNat_mem))
  · obtain ⟨w, -, hz, hw⟩ := decodeDiagFold_eq_ok_iff.1 (decode_of_diagFold hop ▸ hd)
    exact hbad.elim (· hz) (· (hw ▸ w.bits_mem))

theorem decode_of_badArgument {cmd : Word} (h : BadArgument cmd) : ∃ e, decode cmd = .error e := by
  cases hd : decode cmd with
  | ok i => exact absurd h (not_badArgument_of_ok hd)
  | error e => exact ⟨e, rfl⟩

/-- A rejected transaction's payload is gone, so it makes no difference which it was. -/
theorem rejectedWith_of_payload {r : Result} {s : State} {e : ErrCode} (payload : List Byte)
    (h : RejectedWith r { s with payload := payload } e) : RejectedWith r s e := by
  obtain ⟨st, hst, hr⟩ := h
  exact ⟨st, (statusOf_congr rfl rfl rfl rfl rfl).trans hst, hr⟩

/-! ## INIT's own rejection -/

theorem execInit_rejects {s : State} {passes : BitVec 8} {width : BitVec 16} (hs : Readable s) (hp : s.payload = [])
    (hv : passes.toNat ∉ [3, 4, 5] ∨ width.toNat ∉ [128, 160, 192, 224, 256]) :
    RejectedWith (exec (.init passes width) s) s .configuration := by
  have hexec : exec (.init passes width) s = reject .configuration s := by
    rw [exec, execInit, requirePayload_of_length (by rw [hp]; rfl)]
    split
    · next n w hn hw =>
      rw [← PassCount.ofNat?_eq_none, ← Width.ofNat?_eq_none, hn, hw] at hv
      simp at hv
    · rfl
  rw [hexec]
  exact reject_rejects _ hs

/-- Settles O20: a word with a bad argument is not one the decoder accepts, and INIT refuses its illegal values itself. -/
theorem reservedBitsAndFieldsRejected : Obligations.ReservedBitsAndFieldsRejected := by
  refine ⟨fun cmd hbad => ?_, fun cmd hop hv s rest hs hi => ?_⟩
  · obtain ⟨e, hd⟩ := decode_of_badArgument hbad
    exact ⟨⟨e, hd⟩, fun s payload rest hs hi => step_rejects_undecoded hs hi hd⟩
  · obtain ⟨hs, -⟩ := hs
    rw [step_of_transaction hi, perform_of_ok (x := ⟨cmd, []⟩) (decode_of_init hop)]
    refine rejectedWith_of_payload [] (execInit_rejects ?_ rfl hv)
    exact (hs.of_link rest [] s.answers).readable

/-! ## The payload -/

/-- The length of the payload is checked before anything else a command checks; a DIAG_STEP that is ill formed is rejected
with the same code. -/
theorem exec_of_wrong_length {i : Instr} {s : State} (h : s.payload.length ≠ payloadLength i) :
    exec i s = reject .illegalCommand s := by
  cases i with
  | init passes width => exact requirePayload_of_ne h
  | absorb len => exact requirePayload_of_ne h
  | finalize => exact requirePayload_of_ne h
  | diagF k => exact requirePayload_of_ne h
  | diagStep n p i =>
    rw [exec, execDiagStep]
    split
    · rfl
    · exact requirePayload_of_ne h
  | diagCompress n => exact requirePayload_of_ne h
  | diagFold w => exact requirePayload_of_ne h

/-- Settles O24: `exec_of_wrong_length` holds in every phase and with every operand, and STATUS is readable. -/
theorem wrongPayloadLengthRejected : Obligations.WrongPayloadLengthRejected := by
  intro i s hs hl
  rw [exec_of_wrong_length hl]
  exact reject_rejects _ hs.readable

theorem requiredPayload_of_ok {cmd : Word} {i : Instr} (h : decode cmd = .ok i) :
    requiredPayload cmd = payloadLength i := by
  simp only [requiredPayload, h]

theorem requiredPayload_of_error {cmd : Word} {e : Illegal} (h : decode cmd = .error e) : requiredPayload cmd = 0 := by
  simp only [requiredPayload, h]

/-- Settles O21: OP names the command a word decodes to, and the command its payload. -/
theorem payloadLengthFromCommandWord : Obligations.PayloadLengthFromCommandWord := by
  refine fun cmd => ⟨fun hop => ?absorb, fun hop => ?init, fun e hd => requiredPayload_of_error hd, fun i hd => ?other⟩
  case absorb =>
    rw [requiredPayload_of_ok (decode_of_absorb hop), payloadLength, BitVec.extractLsb'_toNat, Nat.shiftRight_zero]
  case init => exact requiredPayload_of_ok (decode_of_init hop)
  case other =>
    obtain ⟨-, hop, -⟩ := decode_eq_ok_iff.1 hd
    rw [requiredPayload_of_ok hd, hop]
    cases i <;> simp [opcode, payloadLength]

/-! ## The ill-formed DIAG_STEP -/

/-- PHI has no row for a pass above the pass count (41_round_functions R127). -/
theorem passRow?_eq_none_iff (n : PassCount) (p : PassIndex) : passRow? n p = none ↔ n.toNat < p.toNat := by
  cases n <;> cases p <;> decide

/-- Settles O49: such a term has no row of PHI, and it is not well formed, so no word decodes to it. -/
theorem illFormedStepRejected : Obligations.IllFormedStepRejected := by
  refine ⟨fun n p i s hs hlt => ?_, fun cmd n p i hd => ?_⟩
  · have hexec : exec (.diagStep n p i) s = reject .illegalCommand s := by
      rw [exec, execDiagStep, (passRow?_eq_none_iff n p).2 hlt]
    rw [hexec]
    exact reject_rejects _ hs.readable
  · obtain ⟨hwf, -⟩ := decode_eq_ok_iff.1 hd
    exact of_decide_eq_true hwf

end Sys2Proof.Machine
end

section
/-! PROOFS. HASH's canonical split (30_encoding R88): pieces of `size` bytes and a last one of what is left. -/

namespace Sys2Proof.Machine

section
variable {size : Nat}

@[simp] theorem chunksOf_nil (fuel : Nat) : chunksOf size fuel [] = [] := by cases fuel <;> rfl

theorem chunksOf_of_ne_nil (fuel : Nat) {data : List Byte} (h : data ≠ []) :
    chunksOf size (fuel + 1) data = data.take size :: chunksOf size fuel (data.drop size) := by
  cases data with
  | nil => exact absurd rfl h
  | cons b bs => rfl

/-- The pieces together are the data, if there is fuel for one piece a byte. -/
theorem chunksOf_flatten (hsize : 0 < size) {fuel : Nat} {data : List Byte} (hfuel : data.length ≤ fuel) :
    (chunksOf size fuel data).flatten = data := by
  induction fuel generalizing data with
  | zero => rw [List.eq_nil_of_length_eq_zero (Nat.le_zero.1 hfuel)]; rfl
  | succ fuel ih =>
    by_cases hd : data = []
    · rw [hd, chunksOf_nil, List.flatten_nil]
    · have hrest : (data.drop size).length ≤ fuel := by rw [List.length_drop]; omega
      rw [chunksOf_of_ne_nil fuel hd, List.flatten_cons, ih hrest, List.take_append_drop]

theorem length_of_mem_chunksOf (hsize : 0 < size) {fuel : Nat} {data c : List Byte}
    (hc : c ∈ chunksOf size fuel data) : 1 ≤ c.length ∧ c.length ≤ size := by
  induction fuel generalizing data with
  | zero => cases hc
  | succ fuel ih =>
    by_cases hd : data = []
    · rw [hd, chunksOf_nil] at hc; cases hc
    · rw [chunksOf_of_ne_nil fuel hd, List.mem_cons] at hc
      obtain rfl | hc := hc
      · have := List.length_pos_iff.2 hd
        rw [List.length_take]
        omega
      · exact ih hc

/-- A piece that another follows is a full one. -/
theorem chunksOf_getElem?_of_not_last {fuel k : Nat} {data : List Byte}
    (hk : k + 1 < (chunksOf size fuel data).length) :
    ∃ c, (chunksOf size fuel data)[k]? = some c ∧ c.length = size := by
  induction fuel generalizing data k with
  | zero => cases hk
  | succ fuel ih =>
    by_cases hd : data = []
    · rw [hd, chunksOf_nil] at hk; cases hk
    · rw [chunksOf_of_ne_nil fuel hd] at hk ⊢
      rw [List.length_cons, Nat.add_lt_add_iff_right] at hk
      cases k with
      | zero =>
        have hrest : data.drop size ≠ [] := by
          intro hnil
          rw [hnil, chunksOf_nil] at hk
          cases hk
        have hlt : size < data.length := by simpa using hrest
        exact ⟨data.take size, rfl, List.length_take_of_le hlt.le⟩
      | succ k => exact ih hk

end

theorem maxAbsorb_pos : 0 < maxAbsorb := by decide

/-- Settles O58, with the fuel of one piece a byte. -/
theorem hashSplitsTheMessage : Obligations.HashSplitsTheMessage := by
  refine fun data => ⟨chunksOf_flatten maxAbsorb_pos le_rfl, fun c => length_of_mem_chunksOf maxAbsorb_pos,
    fun k => chunksOf_getElem?_of_not_last, ?_⟩
  rintro rfl
  exact chunksOf_nil _

end Sys2Proof.Machine
end

section
/-! PROOFS. The assembler (30_encoding R82, R87, R88): legal operands fit their fields, and the word put together from OP
and fields is the command's encoding. -/

namespace Sys2Proof.Machine

/-! ## Operands -/

theorem fieldOf_of_lt {bits v : Nat} (h : v < 2 ^ bits) : fieldOf bits v = some (BitVec.ofNat bits v) := if_pos h

theorem operandWords_of_length {k : Nat} {ws : List Word} (h : ws.length = k) : operandWords k ws = some (unpack ws) :=
  if_pos h

theorem unpack_append (ws vs : List Word) : unpack (ws ++ vs) = unpack ws ++ unpack vs := List.flatMap_append

theorem fieldOf_passCount (n : PassCount) : fieldOf 3 n.toNat = some (BitVec.ofNat 3 n.toNat) := fieldOf_of_lt n.toNat_lt

theorem fieldOf_passIndex (p : PassIndex) : fieldOf 3 p.toNat = some (BitVec.ofNat 3 p.toNat) := fieldOf_of_lt p.toNat_lt

theorem fieldOf_step (i : Fin 32) : fieldOf 5 i.val = some (BitVec.ofFin i) :=
  (fieldOf_of_lt i.isLt).trans (congrArg some (BitVec.ofNat_finVal (w := 5) i))

theorem fieldOf_width (w : Width) : fieldOf 16 w.bits = some (BitVec.ofNat 16 w.bits) :=
  fieldOf_of_lt (w.bits_lt.trans (by decide))

/-! ## Requests

A request's word is OP above ARG by definition (30_encoding R72), so once the fields are read `rfl` compares the two. -/

theorem assembleInit_eq (n : PassCount) (w : Width) : assembleInit n.toNat w.bits = some (initRequest n w) := by
  have hn : fieldOf 8 n.toNat = some (BitVec.ofNat 8 n.toNat) := fieldOf_of_lt (n.toNat_lt.trans (by decide))
  simp only [assembleInit, hn, fieldOf_width]
  rfl

theorem assembleAbsorb_eq {data : List Byte} (h : data.length ≤ maxAbsorb) :
    assembleAbsorb data = some (absorbRequest data) := by
  have hlen : fieldOf 24 data.length = some (BitVec.ofNat 24 data.length) :=
    fieldOf_of_lt (Nat.lt_succ_of_le h)
  simp only [assembleAbsorb, hlen]
  rfl

theorem assembleAbsorbs_eq {chunks : List (List Byte)} (h : ∀ c ∈ chunks, c.length ≤ maxAbsorb) :
    chunks.mapM assembleAbsorb = some (chunks.map absorbRequest) := by
  induction chunks with
  | nil => rfl
  | cons c cs ih =>
    rw [List.forall_mem_cons] at h
    obtain ⟨hc, hcs⟩ := h
    rw [List.mapM_cons, assembleAbsorb_eq hc, ih hcs]
    rfl

theorem assemble_hash (n : PassCount) (w : Width) (data : List Byte) :
    assemble (.hash n.toNat w.bits data) = some (hashCommand n w data) := by
  have habsorbs := assembleAbsorbs_eq (chunks := chunksOf maxAbsorb data.length data)
    fun c hc => (length_of_mem_chunksOf maxAbsorb_pos hc).2
  simp only [assemble, assembleInit_eq, habsorbs]
  rfl

/-- Settles O59, line form by line form: each field is read as the number it was written as, and the words are packed one
operand after the other. -/
theorem assembledLinesAreTheCommands : Obligations.AssembledLinesAreTheCommands := by
  refine ⟨fun n w => ?init, fun data h => ?absorb, rfl, rfl, fun k x hx => ?diagF, fun n p i t b ht hb => ?diagStep,
    fun n a b ha hb => ?diagCompress, fun w v hv => ?diagFold, assemble_hash⟩
  case init => rw [assemble, assembleInit_eq, Option.map_some]
  case absorb => rw [assemble, assembleAbsorb_eq h, Option.map_some]
  case diagF =>
    simp only [assemble, fieldOf_passIndex, operandWords_of_length hx]
    rfl
  case diagStep =>
    simp only [assemble, fieldOf_passCount, fieldOf_passIndex, fieldOf_step, operandWords_of_length ht,
      operandWords_of_length hb, unpack_append]
    rfl
  case diagCompress =>
    simp only [assemble, fieldOf_passCount, operandWords_of_length ha, operandWords_of_length hb, unpack_append]
    rfl
  case diagFold =>
    simp only [assemble, fieldOf_width, operandWords_of_length hv]
    rfl

end Sys2Proof.Machine
end

section
/-! PROOFS. The Word Packer (40_word_packer R100 to R103): PACK takes four bytes to a word, UNPACK takes a word to its four
bytes, and each undoes the other, word by word. -/

namespace Sys2Proof.Machine

/-! ## One word -/

/-- A part shifted above a lower one and joined to it by OR stands next to it. -/
theorem setWidth_or_shiftLeft {m n : Nat} (w : Nat) (lo : BitVec m) (hi : BitVec n) :
    lo.setWidth w ||| (hi.setWidth w <<< m) = (hi ++ lo).setWidth w := by
  refine BitVec.eq_of_getLsbD_eq fun i hw => ?_
  simp only [BitVec.getLsbD_or, BitVec.getLsbD_shiftLeft, BitVec.getLsbD_setWidth, BitVec.getLsbD_append]
  by_cases hm : i < m
  · simp [hw, hm]
  · simp [hw, hm, show i - m < w by omega, BitVec.getLsbD_of_ge lo i (by omega)]

/-- PACK puts the four bytes side by side, the first in the lowest place (40_word_packer R100). -/
theorem packWord_eq_append (b0 b1 b2 b3 : Byte) : packWord b0 b1 b2 b3 = b3 ++ b2 ++ b1 ++ b0 := by
  rw [packWord, setWidth_or_shiftLeft, setWidth_or_shiftLeft 32 (b1 ++ b0), setWidth_or_shiftLeft 32 (b2 ++ (b1 ++ b0)),
    BitVec.setWidth_eq, BitVec.append_assoc, BitVec.append_assoc, BitVec.cast_eq, BitVec.cast_eq]

/-- A word is packed from four bytes exactly when it unpacks to them: each stands at its own bits. -/
theorem packWord_eq_iff {b0 b1 b2 b3 : Byte} {w : Word} :
    packWord b0 b1 b2 b3 = w ↔ unpackWord w = [b0, b1, b2, b3] := by
  have hself : w.extractLsb' 0 (8 + 8 + 8 + 8) = w := BitVec.extractLsb'_eq_self
  rw [packWord_eq_append, eq_comm, ← hself, extractLsb'_eq_append_iff, extractLsb'_eq_append_iff,
    extractLsb'_eq_append_iff, hself]
  simp only [unpackWord, List.cons.injEq]
  tauto

/-! ## Sequences -/

theorem pack_of_length_ne {s : List Byte} (h : s.length % 4 ≠ 0) : pack s = .error .packing := if_neg h

theorem unpack_packWords : ∀ s : List Byte, s.length % 4 = 0 → unpack (packWords s) = s
  | [], _ => rfl
  | [_], h | [_, _], h | [_, _, _], h => by simp at h
  | b0 :: b1 :: b2 :: b3 :: rest, h => by
    have hrest : rest.length % 4 = 0 := by simp only [List.length_cons] at h; omega
    calc unpack (packWord b0 b1 b2 b3 :: packWords rest)
        = unpackWord (packWord b0 b1 b2 b3) ++ unpack (packWords rest) := List.flatMap_cons
      _ = b0 :: b1 :: b2 :: b3 :: rest := by rw [packWord_eq_iff.1 rfl, unpack_packWords rest hrest]; rfl

theorem packWords_unpack (ws : List Word) : packWords (unpack ws) = ws := by
  induction ws with
  | nil => rfl
  | cons w ws ih =>
    calc packWords (unpack (w :: ws)) = packWord _ _ _ _ :: packWords (unpack ws) := rfl
      _ = w :: ws := by rw [packWord_eq_iff.2 rfl, ih]

theorem packWords_getElem? {s : List Byte} {j : Nat} (h : j < s.length / 4) : (packWords s)[j]? = some (wordAt s j) := by
  rw [packWords_eq_map, List.getElem?_map, List.getElem?_range h, Option.map_some]

theorem wordAt_eq_append {s : List Byte} {j : Nat} (h : 4 * j + 3 < s.length) :
    wordAt s j = s[4 * j + 3] ++ s[4 * j + 2] ++ s[4 * j + 1] ++ s[4 * j] := by
  have hget (i : Nat) (hi : i < s.length) : s.getD i 0 = s[i] := List.getD_eq_getElem s 0 hi
  rw [wordAt, packWord_eq_append, hget, hget, hget, hget]

/-! ## The obligations -/

/-- Settles O37: the inverse laws of `packWords` and `unpack`; a length that is a multiple of 4 leaves the second part's
length to decide whether the concatenation can be packed. -/
theorem packAndUnpackInvert : Obligations.PackAndUnpackInvert := by
  refine ⟨fun s h => ⟨_, pack_of_length h, unpack_packWords s h⟩, fun W => ?_, fun s t hs => ⟨fun ht => ?_, fun ht => ?_⟩⟩
  · have hlen : (unpack W).length % 4 = 0 := by rw [unpack_length]; omega
    rw [pack_of_length hlen, packWords_unpack]
  · have hlen : (s ++ t).length % 4 = 0 := by rw [List.length_append]; omega
    exact ⟨_, _, pack_of_length hs, pack_of_length ht, by rw [pack_of_length hlen, packWords_append s t hs]⟩
  · have hlen : (s ++ t).length % 4 ≠ 0 := by rw [List.length_append]; omega
    exact ⟨pack_of_length_ne ht, pack_of_length_ne hlen⟩

/-- Settles O38: word j is `wordAt`, whose four bytes the sequence has, and byte 4j + k is `unpack_getElem?`'s. -/
theorem packedWordsAndBytes : Obligations.PackedWordsAndBytes := by
  refine ⟨fun s h => pack_of_length_ne h, fun s h => ⟨_, pack_of_length h, packWords_length s, fun j hj => ?_⟩,
    fun W => ⟨unpack_length W, fun j k hj hk => ⟨W[j], List.getElem?_eq_getElem hj, unpack_getElem? W j k hj hk⟩⟩⟩
  have hlast : 4 * j + 3 < s.length := by omega
  have hbyte (k : Nat) (hk : k ≤ 3) : s[4 * j + k]? = some s[4 * j + k] := List.getElem?_eq_getElem _
  exact ⟨_, _, _, _, _, hbyte 0 (by omega), hbyte 1 (by omega), hbyte 2 (by omega), hbyte 3 (by omega),
    packWords_getElem? hj, wordAt_eq_append hlast⟩

end Sys2Proof.Machine
end

section
/-! PROOFS. The Round Function Library (41_round_functions R120 to R128): F_k bit by bit, the degrees of its polynomials, and
the table PHI. -/

namespace Sys2Proof.Machine

/-! ## Bit by bit -/

/-- The 7-input Boolean function of which F_k is 32 copies (41_round_functions R120 to R125). -/
def roundBit (k : PassIndex) (a : Vector Bool 7) : Bool :=
  match k with
  | .one => (a[1] && (a[0] ^^ a[4])) ^^ (a[2] && a[5]) ^^ (a[3] && a[6]) ^^ a[0]
  | .two =>
    (a[2] && ((a[1] && !a[3]) ^^ (a[4] && a[5]) ^^ a[6] ^^ a[0])) ^^ (a[4] && (a[1] ^^ a[5])) ^^ (a[3] && a[5]) ^^ a[0]
  | .three => (a[3] && ((a[1] && a[2]) ^^ a[6] ^^ a[0])) ^^ (a[1] && a[4]) ^^ (a[2] && a[5]) ^^ a[0]
  | .four =>
    (a[4] && ((a[5] && !a[2]) ^^ (a[3] && !a[6]) ^^ a[1] ^^ a[6] ^^ a[0]))
      ^^ (a[3] && ((a[1] && a[2]) ^^ a[5] ^^ a[6])) ^^ (a[2] && a[6]) ^^ a[0]
  | .five => (a[0] && ((a[1] && a[2] && a[3]) ^^ !a[5])) ^^ (a[1] && a[4]) ^^ (a[2] && a[5]) ^^ (a[3] && a[6])

/-- A bit inside the word is needed for F2, F4 and F5, which complement an argument. -/
theorem roundFn_getLsbD (k : PassIndex) (x : Vector Word 7) {b : Nat} (hb : b < 32) :
    (roundFn k x).getLsbD b = roundBit k (x.map (·.getLsbD b)) := by
  cases k <;> simp [roundFn, f1, f2, f3, f4, f5, roundBit, hb]

/-- Settles O39: both bits are `roundBit` of the same seven argument bits. -/
theorem roundFunctionsAreBitwise : Obligations.RoundFunctionsAreBitwise := by
  intro k x y b c hb hc h
  have hbits : x.map (·.getLsbD b) = y.map (·.getLsbD c) := Vector.ext fun j hj => by simpa using h ⟨j, hj⟩
  rw [roundFn_getLsbD k x hb, roundFn_getLsbD k y hc, hbits]

/-! ## Degrees -/

/-- Settles O40, as R126 derives it: by computing the polynomial of each of the five functions from its 128 values. -/
theorem roundFunctionDegrees : Obligations.RoundFunctionDegrees := by
  unfold Obligations.RoundFunctionDegrees
  decide +kernel

/-! ## The table PHI -/

theorem passRow?_eq_some_iff {n : PassCount} {p : PassIndex} {row : PassRow} :
    passRow? n p = some row ↔ row.passCount = n ∧ row.passIndex = p := by
  constructor
  · intro h
    have hcount : ∀ r ∈ passRows n, r.passCount = n := by cases n <;> decide
    exact ⟨hcount row (List.mem_of_find?_eq_some h), by simpa using List.find?_some h⟩
  · rintro ⟨rfl, rfl⟩
    cases row <;> rfl

theorem selected_eq_ofFn (row : PassRow) (x : Vector Word 7) :
    selected row x = Vector.ofFn fun k : Fin 7 => x[(selection row)[k]] := rfl

/-- Settles O41: `passRow?` finds the row of (n, p) and none for p above n; the rest is read off the table row by row. -/
theorem permutedFunctionsWrittenOut : Obligations.PermutedFunctionsWrittenOut := by
  refine ⟨fun n p => ?rows, fun row => ?permutations, fun row x => ?arguments, fun x => ?formulas⟩
  case rows =>
    rw [← Nat.not_lt, ← passRow?_eq_none_iff, ← ne_eq, Option.ne_none_iff_exists']
    exact exists_congr fun row => and_iff_left_of_imp passRow?_eq_some_iff.1
  case permutations => cases row <;> decide
  case arguments => rw [fphi, selected_eq_ofFn]
  case formulas => exact ⟨rfl, rfl, rfl, rfl, rfl, rfl, rfl, rfl, rfl, rfl, rfl, rfl⟩

end Sys2Proof.Machine
end

section
/-! PROOFS. The Compression Core (42_compression R160 to R167): the inputs and the target of a step as the working words rotated
by the step's shift, the order of the steps, and the tables of word orders and constants. -/

namespace Sys2Proof.Machine

/-! ## One step -/

/-- Subtraction in `Fin 8`, in which the model rotates the working words, as the spec writes it (42_compression R165). -/
theorem sub_stepShift_val (i : Fin 32) (j : Fin 8) : (j - stepShift i).val = (j.val + 8 - i.val % 8) % 8 := by
  have hs : (stepShift i).val = i.val % 8 := rfl
  rw [Fin.val_sub, hs]
  omega

theorem stepTarget_val (i : Fin 32) : (stepTarget i).val = (7 + 8 - i.val % 8) % 8 := sub_stepShift_val i 7

/-- The shift grows by one from a step to the next, so the word that was x7 becomes x0. -/
theorem zero_sub_stepShift_of_succ {i i' : Fin 32} (h : i'.val = i.val + 1) : 0 - stepShift i' = stepTarget i := by
  apply Fin.ext
  rw [sub_stepShift_val, stepTarget_val, h, Fin.val_zero]
  omega

theorem stepInputs_getElem (i : Fin 32) (T : Vector Word 8) (j : Fin 8) : (stepInputs i T)[j] = T[j - stepShift i] := by
  have hrot : stepInputs i T = Vector.ofFn fun j : Fin 8 => T[j - stepShift i] := rfl
  rw [hrot]
  exact Vector.getElem_ofFn _

theorem stepWords_getElem (row : PassRow) (i : Fin 32) (B : Vector Word 32) (T : Vector Word 8) (j : Fin 8) :
    (stepWords row i B T)[j] = if j = stepTarget i then stepValue row i B T else T[j] := by
  simp only [stepWords, Fin.getElem_fin, Vector.getElem_set, Fin.ext_iff, eq_comm]

/-- Settles O44: x_j is word j − s in `Fin 8`; the next step's x0 is this step's target, which holds the word it wrote. -/
theorem stepInputsRotate : Obligations.StepInputsRotate := by
  refine ⟨fun i T j => ?_, fun row i i' B T h => ?_⟩
  · rw [stepInputs_getElem]
    exact congrArg (fun k : Fin 8 => T[k]) (Fin.ext (sub_stepShift_val i j))
  · calc (stepInputs i' (stepWords row i B T))[(0 : Fin 8)]
        = (stepWords row i B T)[0 - stepShift i'] := stepInputs_getElem _ _ _
      _ = stepValue row i B T := by rw [stepWords_getElem, if_pos (zero_sub_stepShift_of_succ h)]

/-- Settles O45: the only word written is the target, number (7 − i mod 8) mod 8, and its value is `ff` of the inputs. -/
theorem stepChangesOneWord : Obligations.StepChangesOneWord := by
  intro row i B T j x
  have htarget : j = stepTarget i ↔ j.val = (7 + 8 - i.val % 8) % 8 := by rw [Fin.ext_iff, stepTarget_val]
  simp only [stepWords_getElem, htarget]
  rfl

/-! ## The steps in order -/

/-- A product of lists is read row by row. -/
theorem product_getElem? {α β : Type} (as : List α) (bs : List β) {a b : Nat} (ha : a < as.length) (hb : b < bs.length) :
    (as ×ˢ bs)[bs.length * a + b]? = some (as[a], bs[b]) := by
  induction as generalizing a with
  | nil => cases ha
  | cons r as ih =>
    rw [List.product_cons]
    cases a with
    | zero => simp [List.getElem?_append_left, hb]
    | succ a =>
      have hskip : bs.length * (a + 1) + b - bs.length = bs.length * a + b := by rw [Nat.mul_succ]; omega
      rw [List.getElem?_append_right (by rw [List.length_map, Nat.mul_succ]; omega), List.length_map, hskip,
        ih (Nat.lt_of_succ_lt_succ ha)]
      rfl

theorem stepSequence_eq_product (n : PassCount) : stepSequence n = passRows n ×ˢ stepIndices := rfl

theorem stepIndices_getElem : ∀ i : Fin 32, stepIndices[i] = i := by decide

theorem passRows_length (n : PassCount) : (passRows n).length = n.toNat := by cases n <;> rfl

theorem passRows_getElem (n : PassCount) :
    ∀ j : Fin (passRows n).length, (passRows n)[j].passCount = n ∧ (passRows n)[j].passIndex.toNat = j.val + 1 := by
  cases n <;> decide

theorem runPasses_eq_foldl (n : PassCount) (B : Vector Word 32) (T : Vector Word 8) :
    runPasses n B T = (stepSequence n).foldl (fun T x => stepWords x.1 x.2 B T) T := by
  simp only [stepSequence, List.foldl_flatMap, List.foldl_map]
  rfl

/-- Settles O46: the sequence is the product of the rows and the step indices, so number k stands in row k / 32 at k mod 32. -/
theorem passesRunInOrder : Obligations.PassesRunInOrder := by
  refine fun n => ⟨?length, fun k hk => ?order, runPasses_eq_foldl n⟩
  case length =>
    rw [stepSequence_eq_product, List.length_product, passRows_length, Nat.mul_comm]
    rfl
  case order =>
    have hrow : k / 32 < (passRows n).length := by rw [passRows_length]; omega
    have hstep : k % 32 < 32 := Nat.mod_lt _ (by decide)
    obtain ⟨hcount, hindex⟩ := passRows_getElem n ⟨k / 32, hrow⟩
    refine ⟨_, _, ?_, hcount, hindex, congrArg Fin.val (stepIndices_getElem ⟨k % 32, hstep⟩)⟩
    rw [stepSequence_eq_product]
    conv_lhs => rw [← Nat.div_add_mod k 32]
    exact product_getElem? _ stepIndices hrow hstep

/-! ## The tables -/

/-- Settles O42: the 32 entries of each row of ORD are distinct; the two clauses are read off the tables. -/
theorem wordOrdersArePermutations : Obligations.WordOrdersArePermutations := by
  refine ⟨fun p => ?permutation, ?sequential⟩
  case permutation => cases p <;> decide
  case sequential => decide

/-- Settles O43: both series of Machin's formula are summed to 4416 bits by the kernel and their words compared with the
tables, the check 93_implementation_defined G4 names. -/
theorem constantsAreWordsOfPi : Obligations.ConstantsAreWordsOfPi := by
  unfold Obligations.ConstantsAreWordsOfPi
  decide +kernel

end Sys2Proof.Machine
end

section
/-! PROOFS. INIT, ABSORB and FINALIZE (43_streaming R190 to R197): what each leaves of the state where it is accepted, with
ACC over the whole blocks of a byte sequence and CARRY what is after them. -/

namespace Sys2Proof.Machine

/-! ## The whole blocks of a byte sequence and the bytes after them -/

/-- COMPRESS over all the whole blocks of a byte sequence, in order (42_compression R171). -/
def compressWhole (n : PassCount) (a : Vector Word 8) (bytes : List Byte) : Vector Word 8 :=
  compressAll n (bytes.length / blockBytes) a bytes

/-- The bytes after the last whole block, which stay in CARRY (43_streaming R193). -/
def remainder (bytes : List Byte) : List Byte := bytes.drop (blockBytes * (bytes.length / blockBytes))

theorem remainder_length (bytes : List Byte) : (remainder bytes).length = bytes.length % blockBytes :=
  length_drop_blocks bytes

theorem wholeBlocks_append (bytes more : List Byte) :
    (bytes ++ more).length / blockBytes = bytes.length / blockBytes + (remainder bytes ++ more).length / blockBytes := by
  simp only [List.length_append, remainder_length, blockBytes]
  omega

theorem drop_wholeBlocks_append (bytes more : List Byte) :
    (bytes ++ more).drop (blockBytes * (bytes.length / blockBytes)) = remainder bytes ++ more :=
  List.drop_append_of_le_length (Nat.mul_div_le ..)

theorem remainder_append (bytes more : List Byte) : remainder (remainder bytes ++ more) = remainder (bytes ++ more) := by
  conv_rhs => rw [remainder, wholeBlocks_append, Nat.mul_add, ← List.drop_drop, drop_wholeBlocks_append]
  rfl

/-- Going on from the remainder is compressing the whole (43_streaming R212). -/
theorem compressWhole_append (n : PassCount) (a : Vector Word 8) (bytes more : List Byte) :
    compressWhole n (compressWhole n a bytes) (remainder bytes ++ more) = compressWhole n a (bytes ++ more) := by
  have hle : 128 * (bytes.length / blockBytes) ≤ bytes.length := Nat.mul_div_le ..
  calc compressWhole n (compressWhole n a bytes) (remainder bytes ++ more)
      = compressAll n ((remainder bytes ++ more).length / blockBytes)
          (compressAll n (bytes.length / blockBytes) a (bytes ++ more)) (remainder bytes ++ more) := by
        rw [compressAll_append hle]; rfl
    _ = compressWhole n a (bytes ++ more) := by
        conv_rhs => rw [compressWhole, wholeBlocks_append, compressAll_add]
        exact congrArg _ (drop_wholeBlocks_append bytes more).symm

theorem compressWhole_of_short {n : PassCount} {a : Vector Word 8} {bytes : List Byte} (h : bytes.length < 128) :
    compressWhole n a bytes = a := by
  rw [compressWhole, blockBytes, Nat.div_eq_of_lt h, compressAll]

theorem remainder_of_short {bytes : List Byte} (h : bytes.length < 128) : remainder bytes = bytes := by
  rw [remainder, blockBytes, Nat.div_eq_of_lt h, Nat.mul_zero, List.drop_zero]

/-! ## Reading an element that holds a value -/

theorem withValue_readElement {α : Type} {e : Element} {v : Option α} {x : α} {k : α → Result} (h : v = some x) :
    withValue (readElement e v) k = k x := by
  rw [h, readElement_some, withValue_ok]

theorem EngineInv.t_eq_none {s : State} : EngineInv s → s.t = none := fun ⟨_, ht, _⟩ => ht

/-! ## INIT -/

theorem exec_init_completes (n : PassCount) (w : Width) {s : State} (hp : s.payload = []) :
    CompletesWith (exec (.init (BitVec.ofNat 8 n.toNat) (BitVec.ofNat 16 w.bits)) s)
      { initialised n w s with lastErr := .none } [] := by
  have hn : (BitVec.ofNat 8 n.toNat).toNat = n.toNat := (eq_ofNat_iff_toNat_eq (n.toNat_lt.trans (by decide))).1 rfl
  have hw : (BitVec.ofNat 16 w.bits).toNat = w.bits := (eq_ofNat_iff_toNat_eq (w.bits_lt.trans (by decide))).1 rfl
  rw [exec, execInit, requirePayload_of_length (List.length_eq_zero_iff.2 hp), hn, hw, PassCount.ofNat?_toNat, Width.ofNat?_bits]
  exact succeed_completes [] (.inr ⟨n, w, rfl, rfl⟩)

/-- Settles O26: the decoder reads both fields back; legal values are accepted in every phase, others rejected. -/
theorem initStartsComputation : Obligations.InitStartsComputation :=
  ⟨fun passes width => decodeOfEncode (.init passes width) rfl, fun n w _ _ hp => exec_init_completes n w hp,
    fun _ _ _ hs hp hv => execInit_rejects hs.readable hp hv⟩

/-! ## ABSORB -/

theorem addBits_zero (c : DWord) : addBits c 0#24 = c := by simp [addBits]

theorem lastBlock_zero (bytes : List Byte) (old : Option (Vector Word 32)) : lastBlock 0 bytes old = old := if_pos rfl

/-- What an ABSORB of the state's payload leaves of ACC `a`, BITCNT `c` and CARRY `carry`, before its answer
(43_streaming R191 to R193). -/
def afterAbsorb (n : PassCount) (a : Vector Word 8) (c : DWord) (carry : List Byte) (len : BitVec 24) (s : State) : State :=
  { s with
    bitcnt := some (addBits c len)
    acc := some (compressWhole n a (carry ++ s.payload))
    blk := lastBlock ((carry ++ s.payload).length / blockBytes) (carry ++ s.payload) s.blk
    carry := some (remainder (carry ++ s.payload))
    lastErr := .none }

theorem afterAbsorb_nothing {n : PassCount} {a : Vector Word 8} {c : DWord} {carry : List Byte} {s : State}
    (ha : s.acc = some a) (hc : s.bitcnt = some c) (hcarry : s.carry = some carry) (hshort : carry.length < 128)
    (hp : s.payload = []) : afterAbsorb n a c carry 0#24 s = { s with lastErr := .none } := by
  rw [afterAbsorb, hp, List.append_nil, addBits_zero, compressWhole_of_short hshort, remainder_of_short hshort, blockBytes,
    Nat.div_eq_of_lt hshort, lastBlock_zero, ← ha, ← hc, ← hcarry, ← hp]

theorem exec_absorb_completes {s : State} {n : PassCount} {w : Width} {a : Vector Word 8} {c : DWord} {carry : List Byte}
    {len : BitVec 24} (hp : s.phase = .active) (hn : s.cfgPasses = some n) (hw : s.cfgWidth = some w)
    (ha : s.acc = some a) (hc : s.bitcnt = some c) (hcarry : s.carry = some carry) (ht : s.t = none)
    (hl : s.payload.length = len.toNat) :
    CompletesWith (exec (.absorb len) s) (afterAbsorb n a c carry len s) [] := by
  rw [exec, execAbsorb, requirePayload_of_length hl, requireActive_of_active hp, absorbPayload,
    withValue_readElement hc, withValue_readElement hcarry]
  dsimp only
  rw [compressBlocks_whole (s := { s with bitcnt := some (addBits c len) }) hn ha ht, andThen_next]
  exact succeed_completes [] (.inr ⟨n, w, hn, hw⟩)

theorem exec_absorb_rejects {s : State} {len : BitVec 24} (hs : EngineInv s) (hp : s.phase ≠ .active)
    (hl : s.payload.length = len.toNat) : RejectedWith (exec (.absorb len) s) s .stateMisuse := by
  rw [exec, execAbsorb, requirePayload_of_length hl, requireActive_of_ne hp]
  exact reject_rejects _ hs.readable

/-- Settles O27, from what ABSORB leaves in ACTIVE; where it brings no bytes, CARRY holds no whole block either. -/
theorem absorbAddsItsPayload : Obligations.AbsorbAddsItsPayload := by
  refine ⟨fun len => decodeOfEncode (.absorb len) rfl, fun s n a c carry len hs hp hn ha hc hcarry hl => ?counts,
    fun s hs hp hnil => ?nothing, fun s len hs hp hl => exec_absorb_rejects hs hp hl⟩
  case counts =>
    obtain ⟨-, w, -, -, -, -, hw, -⟩ := hs.active hp
    rw [← List.length_append]
    exact ⟨_, exec_absorb_completes hp hn hw ha hc hcarry hs.t_eq_none hl⟩
  case nothing =>
    obtain ⟨n, w, a, c, carry, hn, hw, ha, hc, hcarry, hshort, -⟩ := hs.active hp
    rw [← afterAbsorb_nothing (n := n) ha hc hcarry hshort hnil]
    exact exec_absorb_completes hp hn hw ha hc hcarry hs.t_eq_none (List.length_eq_zero_iff.2 hnil)

/-- Settles O28: `afterAbsorb` names the block that ABSORB leaves in BLK, and the answer does not write it. -/
theorem absorbLeavesTheLastBlock : Obligations.AbsorbLeavesTheLastBlock := by
  intro s t carry len hs hp hcarry hl h
  obtain ⟨n, w, a, c, -, hn, hw, ha, hc, -⟩ := hs.active hp
  obtain ⟨st, -, hexec⟩ := exec_absorb_completes hp hn hw ha hc hcarry hs.t_eq_none hl
  cases hexec.symm.trans h
  rfl

/-- Settles O29: 8·LEN is below 2^27, so its sum with the low half has 33 bits at most, and the 33rd is the carry. -/
theorem bitCounterHalves : Obligations.BitCounterHalves := by
  intro c len sum
  have hlen := len.isLt
  have hsum : sum.toNat = c.toNat % 2 ^ 32 + 8 * len.toNat := by
    simp only [sum, bitcntLo, BitVec.toNat_add, BitVec.toNat_mul, BitVec.toNat_setWidth, BitVec.extractLsb'_toNat,
      BitVec.toNat_ofNat, Nat.shiftRight_zero]
    omega
  have hadd : (addBits c len).toNat = (c.toNat + 8 * len.toNat) % 2 ^ 64 := by
    simp only [addBits, BitVec.toNat_add, BitVec.toNat_mul, BitVec.toNat_setWidth, BitVec.toNat_ofNat]
    omega
  refine ⟨BitVec.eq_of_toNat_eq ?_, BitVec.eq_of_toNat_eq ?_, ?_⟩
  all_goals
    simp only [bitcntLo, bitcntHi, BitVec.toNat_add, BitVec.extractLsb'_toNat, hsum, hadd, Nat.shiftRight_eq_div_pow]
    omega

/-! ## FINALIZE -/

theorem exec_finalize_completes {s : State} {n : PassCount} {w : Width} {a : Vector Word 8} {c : DWord}
    {carry : List Byte} (hp : s.phase = .active) (hn : s.cfgPasses = some n) (hw : s.cfgWidth = some w)
    (ha : s.acc = some a) (hc : s.bitcnt = some c) (hcarry : s.carry = some carry) (ht : s.t = none)
    (hnil : s.payload = []) :
    CompletesWith (exec .finalize s) { cleared s with lastErr := .none }
      (digestBytes w (compressWhole n a (paddedMessage n w c carry))) := by
  rw [exec, execFinalize, requirePayload_of_length (List.length_eq_zero_iff.2 hnil), requireActive_of_active hp, finalizeMessage,
    withValue_readElement hn, withValue_readElement hw, withValue_readElement hcarry, withValue_readElement hc]
  dsimp only
  rw [compressBlocks_whole hn ha ht, andThen_next, withValue_readElement rfl]
  exact succeed_completes _ (.inr ⟨n, w, hn, hw⟩)

theorem exec_finalize_rejects {s : State} (hs : EngineInv s) (hp : s.phase ≠ .active) (hnil : s.payload = []) :
    RejectedWith (exec .finalize s) s .stateMisuse := by
  rw [exec, execFinalize, requirePayload_of_length (List.length_eq_zero_iff.2 hnil), requireActive_of_ne hp]
  exact reject_rejects _ hs.readable

/-- Settles O30, from what FINALIZE leaves in ACTIVE and the phase check elsewhere. -/
theorem finalizeEmitsTheDigest : Obligations.FinalizeEmitsTheDigest :=
  ⟨decodeOfEncode .finalize rfl,
    fun _ _ _ _ _ _ hs hp hn hw ha hc hcarry hnil =>
      exec_finalize_completes hp hn hw ha hc hcarry hs.t_eq_none hnil,
    fun _ hs hp hnil => exec_finalize_rejects hs hp hnil⟩

/-! ## One request -/

theorem step_of_request {s : State} {i : Instr} {payload : List Byte} {rest : List Request} (hwf : i.wellFormed = true)
    (hi : s.inbox = request i payload :: rest) : step s = exec i { s with inbox := rest, payload := payload } := by
  rw [step_of_transaction hi, perform_of_ok (x := ⟨encode i, payload⟩) (decodeOfEncode i hwf)]

/-- Settles O31: the first FINALIZE leaves FINALIZED, where the phase check refuses the second. -/
theorem secondFinalizeRejected : Obligations.SecondFinalizeRejected := by
  rintro s rest ⟨hs, hpay⟩ hp hi
  obtain ⟨n, w, a, c, carry, hn, hw, ha, hc, hcarry, -⟩ := hs.active hp
  obtain ⟨st, -, hexec⟩ :=
    exec_finalize_completes (s := { s with inbox := finalizeRequest :: rest, payload := [] }) hp hn hw ha hc hcarry
      hs.t_eq_none rfl
  have hfirst := (step_of_request rfl hi).trans hexec
  obtain ⟨hinv, -⟩ := stepKeepsInvariant s _ ⟨hs, hpay⟩ hfirst
  obtain ⟨st', -, hsecond⟩ := exec_finalize_rejects (hinv.of_link rest [] _) nofun rfl
  exact ⟨_, _, st', hfirst, (step_of_request rfl rfl).trans hsecond, rfl, rfl, rfl⟩

end Sys2Proof.Machine
end

section
/-! PROOFS. Padding, tail and fold (43_streaming R198 to R211): lengths and bytes, and the folds as sums of bit fields. -/

namespace Sys2Proof.Machine

/-! ## Padding and tail -/

theorem padLength_of_lt {r : Nat} (h : r < 118) : padLength r = 118 - r := if_pos h

theorem padLength_of_ge {r : Nat} (h : 118 ≤ r) : padLength r = 246 - r := if_neg h.not_gt

theorem padLength_pos {r : Nat} (h : r ≤ 127) : 1 ≤ padLength r := by
  unfold padLength
  split <;> omega

theorem padBytes_length {r : Nat} (h : r ≤ 127) : (padBytes r).length = padLength r := by
  rw [padBytes, List.length_cons, List.length_replicate, Nat.sub_add_cancel (padLength_pos h)]

theorem tailBytes_length (n : PassCount) (w : Width) (c : DWord) : (tailBytes n w c).length = 10 := rfl

/-- Settles O32, on the two sides of r = 118. -/
theorem paddingLengthAndBytes : Obligations.PaddingLengthAndBytes := by
  intro r hr
  have hpos := padLength_pos hr
  obtain hlt | hge := Nat.lt_or_ge r 118
  · have hpad := padLength_of_lt hlt
    exact ⟨fun _ => hpad, by omega, by omega, hpos, by omega, rfl, padBytes_length hr⟩
  · have hpad := padLength_of_ge hge
    exact ⟨by omega, fun _ => hpad, by omega, hpos, by omega, rfl, padBytes_length hr⟩

/-- The padding of a long carry fills its block and leaves the next one zero up to the tail (43_streaming R204). -/
theorem padBytes_two_blocks {r : Nat} (h1 : 118 ≤ r) (h2 : r ≤ 127) :
    padBytes r = [0x01#8] ++ List.replicate (127 - r) 0#8 ++ List.replicate 118 0#8 := by
  have hzeros : padLength r - 1 = (127 - r) + 118 := by rw [padLength_of_ge h1]; omega
  rw [padBytes, hzeros, List.append_assoc, List.replicate_append_replicate]
  rfl

/-- Settles O33: one block by the length alone; in two, the padding is cut where the first block is full. -/
theorem finalBlocks : Obligations.FinalBlocks := by
  intro n w c carry hr r msg
  have hlen : msg.length = r + padLength r + 10 := by
    simp only [msg, List.length_append, padBytes_length hr, tailBytes_length, r]
  refine ⟨fun h => ?one, fun h => ?two⟩
  case one =>
    have hpad := padLength_of_lt (Nat.lt_succ_of_le h)
    omega
  case two =>
    have hpad := padLength_of_ge h
    have hfirst : (carry ++ [0x01#8] ++ List.replicate (127 - r) 0#8).length = 128 := by
      simp only [List.length_append, List.length_singleton, List.length_replicate]
      omega
    have hmsg : msg = (carry ++ [0x01#8] ++ List.replicate (127 - r) 0#8) ++
        (List.replicate 118 0#8 ++ tailBytes n w c) := by
      simp only [msg, padBytes_two_blocks h hr, List.append_assoc]
    exact ⟨by omega, by rw [hmsg, List.take_left' hfirst], by rw [hmsg, List.drop_left' hfirst]⟩

theorem extractLsb'_extractLsb' {n lo len i k : Nat} (x : BitVec n) (h : i + k ≤ len) :
    (x.extractLsb' lo len).extractLsb' i k = x.extractLsb' (lo + i) k := by
  refine BitVec.eq_of_getLsbD_eq fun b hb => ?_
  have hin : i + b < len := by omega
  simp only [BitVec.getLsbD_extractLsb', hb, hin, decide_true, Bool.true_and, Nat.add_assoc]

/-- The count's eight bytes stand in the tail in little-endian order (43_streaming R202). -/
theorem tailBytes_count (n : PassCount) (w : Width) (c : DWord) {j : Nat} (hj : j < 8) :
    (tailBytes n w c)[2 + j]? = some (c.extractLsb' (8 * j) 8) := by
  have hskip : (tailBytes n w c)[2 + j]? = (unpack [bitcntLo c, bitcntHi c])[j]? := by
    rw [tailBytes, ← unpack_append, Nat.add_comm, List.getElem?_cons_succ, List.getElem?_cons_succ]; rfl
  rw [hskip]
  obtain hlow | hhigh := Nat.lt_or_ge j 4
  · calc (unpack [bitcntLo c, bitcntHi c])[j]?
        = (unpack [bitcntLo c, bitcntHi c])[4 * 0 + j]? := by rw [Nat.mul_zero, Nat.zero_add]
      _ = some (c.extractLsb' (0 + 8 * j) 8) := by
        rw [unpack_getElem? [bitcntLo c, bitcntHi c] 0 j Nat.two_pos hlow]
        exact congrArg some (extractLsb'_extractLsb' c (by omega))
      _ = some (c.extractLsb' (8 * j) 8) := by rw [Nat.zero_add]
  · obtain ⟨k, rfl⟩ := Nat.exists_eq_add_of_le hhigh
    have hk : k < 4 := by omega
    rw [unpack_getElem? [bitcntLo c, bitcntHi c] 1 k Nat.one_lt_two hk, Nat.mul_add]
    exact congrArg some (extractLsb'_extractLsb' c (by omega))

/-- Settles O34: the tag and width bytes value by value, and the count as `tailBytes_count` has it. -/
theorem tailLayout : Obligations.TailLayout := by
  refine fun n w c => ⟨tailBytes_length n w c, rfl, ?tag, rfl, ?width, fun j hj => tailBytes_count n w c hj, rfl⟩
  case tag => cases n <;> cases w <;> rfl
  case width => cases w <;> rfl

/-! ## The digest's bytes -/

/-- Settles O35: four bytes to each word of the fold. -/
theorem digestBytes_length_and_order : Obligations.DigestBytes := by
  intro w V
  have hwords := fold_length w V
  refine ⟨?length, fun j k hj hk => ?bytes⟩
  case length =>
    rw [unpack_length, hwords]
    cases w <;> rfl
  case bytes =>
    have hj' : j < (fold w V).length := hwords ▸ hj
    exact ⟨_, List.getElem?_eq_getElem hj', unpack_getElem? _ j k hj' hk⟩

/-! ## Bit fields

A field of a word is moved about by masks, shifts and rotations; each rule below is checked bit by bit. -/

/-- A field put at bit `lo` of a word, with zeros around it. -/
def place {len : Nat} (lo : Nat) (f : BitVec len) : Word := f.setWidth 32 <<< lo

theorem rotr_getLsbD (x : Word) (n : Nat) {i : Nat} (hi : i < 32) :
    (rotr x n).getLsbD i = (x.getLsbD (n + i) || (!decide (i < 32 - n) && x.getLsbD (i - (32 - n)))) := by
  simp only [rotr, BitVec.getLsbD_or, BitVec.getLsbD_ushiftRight, BitVec.getLsbD_shiftLeft, hi, decide_true,
    Bool.true_and]

theorem rotr_or (x y : Word) (n : Nat) : rotr (x ||| y) n = rotr x n ||| rotr y n := by
  rw [rotr, BitVec.ushiftRight_or_distrib, BitVec.shiftLeft_or_distrib, rotr, rotr]
  ac_rfl

theorem extractLsb'_ushiftRight (x : Word) (n len : Nat) : (x >>> n).extractLsb' 0 len = x.extractLsb' n len := by
  refine BitVec.eq_of_getLsbD_eq fun i hi => ?_
  simp only [BitVec.getLsbD_extractLsb', BitVec.getLsbD_ushiftRight, Nat.zero_add]

section
variable {len lo n : Nat} (f : BitVec len)

theorem place_getLsbD (i : Nat) : (place lo f).getLsbD i = (decide (i < 32 ∧ lo ≤ i) && f.getLsbD (i - lo)) := by
  simp only [place, BitVec.getLsbD_shiftLeft, BitVec.getLsbD_setWidth]
  grind

theorem place_zero : place 0 f = f.setWidth 32 := BitVec.shiftLeft_zero _

theorem ushiftRight_place (hlo : n ≤ lo) (hfits : lo + len ≤ 32) : place lo f >>> n = place (lo - n) f := by
  refine BitVec.eq_of_getLsbD_eq fun i hi => ?_
  simp only [BitVec.getLsbD_ushiftRight, place_getLsbD]
  grind

/-- A field at or above the bit that a rotation brings to bit 0 moves down. -/
theorem rotr_place_high (hlo : n ≤ lo) (hn : n ≤ 32) (hfits : lo + len ≤ 32) :
    rotr (place lo f) n = place (lo - n) f := by
  refine BitVec.eq_of_getLsbD_eq fun i hi => ?_
  simp only [rotr_getLsbD _ _ hi, place_getLsbD]
  grind

/-- A field below the bit that a rotation brings to bit 0 comes in again from the top. -/
theorem rotr_place_low (hlo : lo + len ≤ n) (hn : n ≤ 32) : rotr (place lo f) n = place (lo + (32 - n)) f := by
  refine BitVec.eq_of_getLsbD_eq fun i hi => ?_
  simp only [rotr_getLsbD _ _ hi, place_getLsbD]
  grind

/-- Two fields next to each other are one field. -/
theorem place_or_place {k hi : Nat} (g : BitVec k) (h : hi = lo + len) : place hi g ||| place lo f = place lo (g ++ f) := by
  rw [h, Nat.add_comm, place, place, place, BitVec.shiftLeft_add, ← BitVec.shiftLeft_or_distrib, BitVec.or_comm,
    setWidth_or_shiftLeft]

end

/-- Masking a word with the ones of a field leaves that field, in its place. -/
theorem and_mask (lo len : Nat) (m : Word) (hm : m = place lo (BitVec.allOnes len)) (x : Word) :
    x &&& m = place lo (x.extractLsb' lo len) := by
  subst hm
  refine BitVec.eq_of_getLsbD_eq fun i hi => ?_
  simp only [BitVec.getLsbD_and, place_getLsbD, BitVec.getLsbD_extractLsb', BitVec.getLsbD_allOnes]
  grind

/-! ## The folds (43_streaming R206 to R210)

The masks of a fold cut a word into consecutive fields; `and_mask` is given the first bit and the length of each. -/

theorem fold224_fields (V : Vector Word 8) :
    fold224 V =
      [V[0] + (V[7].extractLsb' 27 5).setWidth 32, V[1] + (V[7].extractLsb' 22 5).setWidth 32,
       V[2] + (V[7].extractLsb' 18 4).setWidth 32, V[3] + (V[7].extractLsb' 13 5).setWidth 32,
       V[4] + (V[7].extractLsb' 9 4).setWidth 32, V[5] + (V[7].extractLsb' 4 5).setWidth 32,
       V[6] + (V[7].extractLsb' 0 4).setWidth 32] := by
  simp only [fold224, and_mask 0 5 0x1F#32 (by decide), and_mask 0 4 0x0F#32 (by decide), extractLsb'_ushiftRight,
    place_zero]

theorem fold192_fields (V : Vector Word 8) :
    fold192 V =
      [V[0] + (V[7].extractLsb' 0 5 ++ V[6].extractLsb' 26 6).setWidth 32,
       V[1] + (V[7].extractLsb' 5 5 ++ V[6].extractLsb' 0 5).setWidth 32,
       V[2] + (V[7].extractLsb' 10 6 ++ V[6].extractLsb' 5 5).setWidth 32,
       V[3] + (V[7].extractLsb' 16 5 ++ V[6].extractLsb' 10 6).setWidth 32,
       V[4] + (V[7].extractLsb' 21 5 ++ V[6].extractLsb' 16 5).setWidth 32,
       V[5] + (V[7].extractLsb' 26 6 ++ V[6].extractLsb' 21 5).setWidth 32] := by
  simp only [fold192, and_mask 0 5 0x0000001F#32 (by decide), and_mask 5 5 0x000003E0#32 (by decide),
    and_mask 10 6 0x0000FC00#32 (by decide), and_mask 16 5 0x001F0000#32 (by decide),
    and_mask 21 5 0x03E00000#32 (by decide), and_mask 26 6 0xFC000000#32 (by decide),
    rotr_or, BitVec.ushiftRight_or_distrib]
  simp (disch := decide) only [rotr_place_high, rotr_place_low, ushiftRight_place, place_or_place, Nat.reduceSub]
  simp only [place_zero]

theorem fold160_fields (V : Vector Word 8) :
    fold160 V =
      [V[0] + (V[7].extractLsb' 0 6 ++ V[6].extractLsb' 25 7 ++ V[5].extractLsb' 19 6).setWidth 32,
       V[1] + (V[7].extractLsb' 6 6 ++ V[6].extractLsb' 0 6 ++ V[5].extractLsb' 25 7).setWidth 32,
       V[2] + (V[7].extractLsb' 12 7 ++ V[6].extractLsb' 6 6 ++ V[5].extractLsb' 0 6).setWidth 32,
       V[3] + (V[7].extractLsb' 19 6 ++ V[6].extractLsb' 12 7 ++ V[5].extractLsb' 6 6).setWidth 32,
       V[4] + (V[7].extractLsb' 25 7 ++ V[6].extractLsb' 19 6 ++ V[5].extractLsb' 12 7).setWidth 32] := by
  simp only [fold160, and_mask 0 6 0x0000003F#32 (by decide), and_mask 6 6 0x00000FC0#32 (by decide),
    and_mask 12 7 0x0007F000#32 (by decide), and_mask 19 6 0x01F80000#32 (by decide),
    and_mask 25 7 0xFE000000#32 (by decide), rotr_or, BitVec.ushiftRight_or_distrib]
  simp (disch := decide) only [rotr_place_high, rotr_place_low, ushiftRight_place, place_or_place, Nat.reduceSub,
    Nat.reduceAdd]
  simp only [place_zero]

theorem fold128_fields (V : Vector Word 8) :
    fold128 V =
      [V[0] + (V[7].extractLsb' 0 8 ++ V[6].extractLsb' 24 8 ++ V[5].extractLsb' 16 8 ++ V[4].extractLsb' 8 8).setWidth 32,
       V[1] + (V[7].extractLsb' 8 8 ++ V[6].extractLsb' 0 8 ++ V[5].extractLsb' 24 8 ++ V[4].extractLsb' 16 8).setWidth 32,
       V[2] + (V[7].extractLsb' 16 8 ++ V[6].extractLsb' 8 8 ++ V[5].extractLsb' 0 8 ++ V[4].extractLsb' 24 8).setWidth 32,
       V[3] + (V[7].extractLsb' 24 8 ++ V[6].extractLsb' 16 8 ++ V[5].extractLsb' 8 8 ++ V[4].extractLsb' 0 8).setWidth 32]
    := by
  simp only [fold128, and_mask 0 8 0x000000FF#32 (by decide), and_mask 8 8 0x0000FF00#32 (by decide),
    and_mask 16 8 0x00FF0000#32 (by decide), and_mask 24 8 0xFF000000#32 (by decide), rotr_or]
  simp (disch := decide) only [rotr_place_high, rotr_place_low, place_or_place, Nat.reduceSub, Nat.reduceAdd]
  simp only [place_zero]

theorem toList_getD (V : Vector Word 8) {j : Nat} (hj : j < 8) : V.toList.getD j 0 = V[j] := by
  rw [List.getD_eq_getElem _ _ (by rwa [Vector.length_toList]), Vector.getElem_toList]

theorem fold256_eq (V : Vector Word 8) : fold256 V = V.toList := by
  have hV : V = Vector.ofFn fun j : Fin 8 => V[j] := by simp
  conv_rhs => rw [hV]
  rfl

/-- Settles O36: the masks of a fold cut words into fields, and the shift or rotation puts the fields side by side. -/
theorem foldAddsBitFields : Obligations.FoldAddsBitFields := by
  intro V fld
  have hfld (j lo len : Nat) (hj : j < 8) : fld j lo len = V[j].extractLsb' lo len :=
    congrArg (BitVec.extractLsb' lo len) (toList_getD V hj)
  simp (disch := decide) only [hfld]
  exact ⟨fold256_eq V, fold224_fields V, fold192_fields V, fold160_fields V, fold128_fields V⟩

end Sys2Proof.Machine
end

section
/-! PROOFS. A whole hash sequence (43_streaming R212 to R214): the state after INIT and ABSORBs as a function of the
concatenation, by induction over the chunks, and FINALIZE's answer from there. -/

namespace Sys2Proof.Machine

/-! ## A computation that has absorbed a message -/

/-- BITCNT and the length of a message of whole bytes count on alike, both modulo 2^64 (10_state R28). -/
theorem addBits_length (msg c : List Byte) (h : c.length ≤ maxAbsorb) :
    addBits (BitVec.ofNat 64 (8 * msg.length)) (BitVec.ofNat 24 c.length) =
      BitVec.ofNat 64 (8 * (msg ++ c).length) := by
  unfold maxAbsorb at h
  apply BitVec.eq_of_toNat_eq
  simp only [addBits, BitVec.toNat_add, BitVec.toNat_mul, BitVec.toNat_setWidth, BitVec.toNat_ofNat, List.length_append]
  omega

/-- The engine is in the middle of a computation with `n` and `w` that has absorbed `msg`: its elements depend on `msg`
alone, not on the chunks it came in (43_streaming R212). -/
structure HoldsMessage (n : PassCount) (w : Width) (msg : List Byte) (s : State) : Prop where
  phase : s.phase = .active
  cfgPasses : s.cfgPasses = some n
  cfgWidth : s.cfgWidth = some w
  bitcnt : s.bitcnt = some (BitVec.ofNat 64 (8 * msg.length))
  carry : s.carry = some (remainder msg)
  acc : s.acc = some (compressWhole n iv msg)
  t : s.t = none

theorem step_init {s : State} {rest : List Request} (n : PassCount) (w : Width) (hi : s.inbox = initRequest n w :: rest) :
    ∃ t, step s = .next t ∧ HoldsMessage n w [] t ∧ t.inbox = rest ∧ t.errSticky = s.errSticky := by
  obtain ⟨st, -, hstep⟩ := exec_init_completes n w (s := { s with inbox := rest, payload := [] }) rfl
  exact ⟨_, (step_of_request rfl hi).trans hstep, ⟨rfl, rfl, rfl, rfl, rfl, rfl, rfl⟩, rfl, rfl⟩

theorem HoldsMessage.step_absorb {n : PassCount} {w : Width} {msg c : List Byte} {s : State} {rest : List Request}
    (h : HoldsMessage n w msg s) (hlen : c.length ≤ maxAbsorb) (hi : s.inbox = absorbRequest c :: rest) :
    ∃ t, step s = .next t ∧ HoldsMessage n w (msg ++ c) t ∧ t.inbox = rest ∧ t.errSticky = s.errSticky := by
  obtain ⟨hp, hn, hw, hc, hcarry, ha, ht⟩ := h
  have hlt : c.length < 2 ^ 24 := Nat.lt_succ_of_le hlen
  have hfits : c.length = (BitVec.ofNat 24 c.length).toNat := ((eq_ofNat_iff_toNat_eq hlt).1 rfl).symm
  obtain ⟨st, -, hstep⟩ :=
    exec_absorb_completes (s := { s with inbox := rest, payload := c }) hp hn hw ha hc hcarry ht hfits
  exact ⟨_, (step_of_request rfl hi).trans hstep, ⟨hp, hn, hw, congrArg some (addBits_length msg c hlen),
    congrArg some (remainder_append msg c), congrArg some (compressWhole_append n iv msg c), ht⟩, rfl, rfl⟩

/-- Padding the bytes left in CARRY is padding the whole message (43_streaming R214). -/
theorem digest_of_remainder (n : PassCount) (w : Width) (msg : List Byte) :
    digestBytes w (compressWhole n (compressWhole n iv msg)
      (paddedMessage n w (BitVec.ofNat 64 (8 * msg.length)) (remainder msg))) = messageDigest n w msg := by
  rw [paddedMessage, remainder_length, List.append_assoc, compressWhole_append, ← List.append_assoc]
  rfl

theorem HoldsMessage.step_finalize {n : PassCount} {w : Width} {msg : List Byte} {s : State} {rest : List Request}
    (h : HoldsMessage n w msg s) (hi : s.inbox = finalizeRequest :: rest) :
    ∃ t, step s = .next t ∧ t.phase = .finalized ∧ t.inbox = rest ∧ t.answers = s.answers ++
      [.done (statusWord .finalized .none s.errSticky n.toNat w.bits) (messageDigest n w msg)] := by
  obtain ⟨hp, hn, hw, hc, hcarry, ha, ht⟩ := h
  obtain ⟨st, hst, hstep⟩ :=
    exec_finalize_completes (s := { s with inbox := rest, payload := [] }) hp hn hw ha hc hcarry ht rfl
  rw [digest_of_remainder] at hstep
  obtain rfl : st = statusWord .finalized .none s.errSticky n.toNat w.bits :=
    Except.ok.inj (hst.symm.trans (statusOf_configured nofun hn hw))
  exact ⟨_, (step_of_request rfl hi).trans hstep, rfl, rfl, rfl⟩

/-! ## Runs -/

theorem run_add (M : Host.Core) {k l : Nat} {s t : M.State} (h : M.run k s = .next t) : M.run (k + l) s = M.run l t := by
  induction k generalizing s with
  | zero => cases h; rw [Nat.zero_add]
  | succ k ih =>
    rw [Nat.add_right_comm]
    cases hstep : M.step s with
    | next s' =>
      simp only [Host.Core.run, hstep] at h ⊢
      exact ih h
    | fault f => simp only [Host.Core.run, hstep, reduceCtorEq] at h
    | refused m => simp only [Host.Core.run, hstep, reduceCtorEq] at h

theorem HoldsMessage.run_absorbs {n : PassCount} {w : Width} {msg : List Byte} {chunks : List (List Byte)}
    {rest : List Request} {s : State} (h : HoldsMessage n w msg s) (hlen : ∀ c ∈ chunks, c.length ≤ maxAbsorb)
    (hi : s.inbox = chunks.map absorbRequest ++ rest) :
    ∃ t, Host.Core.run core chunks.length s = .next t ∧ HoldsMessage n w (msg ++ chunks.flatten) t ∧ t.inbox = rest ∧
      t.errSticky = s.errSticky := by
  induction chunks generalizing msg s with
  | nil => exact ⟨s, rfl, by rwa [List.flatten_nil, List.append_nil], hi, rfl⟩
  | cons c cs ih =>
    obtain ⟨hc, hcs⟩ := List.forall_mem_cons.1 hlen
    obtain ⟨t, hstep, ht, hin, hsticky⟩ := h.step_absorb hc hi
    obtain ⟨u, hrun, hu, hrest, hsticky'⟩ := ih ht hcs hin
    exact ⟨u, run_succ core hstep hrun, by rwa [List.flatten_cons, ← List.append_assoc], hrest, hsticky'.trans hsticky⟩

theorem run_init_absorbs {n : PassCount} {w : Width} {chunks : List (List Byte)} {rest : List Request} {s : State}
    (hlen : ∀ c ∈ chunks, c.length ≤ maxAbsorb) (hi : s.inbox = initRequest n w :: (chunks.map absorbRequest ++ rest)) :
    ∃ t, Host.Core.run core (chunks.length + 1) s = .next t ∧ HoldsMessage n w chunks.flatten t ∧ t.inbox = rest ∧
      t.errSticky = s.errSticky := by
  obtain ⟨t, hstep, ht, hin, hsticky⟩ := step_init n w hi
  obtain ⟨u, hrun, hu, hrest, hsticky'⟩ := ht.run_absorbs hlen hin
  exact ⟨u, run_succ core hstep hrun, hu, hrest, hsticky'.trans hsticky⟩

/-- Settles O54: after INIT and the ABSORBs the engine holds the whole message, by induction over the chunks, and FINALIZE
answers from there with its digest. -/
theorem hashComputesTheMessageDigest : Obligations.HashComputesTheMessageDigest := by
  intro s n w chunks rest _ hlen hi
  rw [hashRequests, List.cons_append, List.append_assoc] at hi
  obtain ⟨t, hrun, ht, hin, hsticky⟩ := run_init_absorbs hlen hi
  obtain ⟨u, hstep, hphase, hrest, hanswers⟩ := ht.step_finalize hin
  refine ⟨u, ?_, hphase, hrest, ?_⟩
  · exact (run_add core (l := 1) hrun).trans (run_succ core hstep rfl)
  · rw [hanswers, List.getLast?_concat, hsticky]

/-- Settles O55: `HoldsMessage` speaks of the concatenation only, and both digests are `messageDigest` of it. -/
theorem chunkingInvariance : Obligations.ChunkingInvariance := by
  refine ⟨fun s n w chunks rest _ hlen hi => ?boundary, fun s1 s2 n w c1 c2 hs1 hs2 h1 h2 hmsg hi1 hi2 => ?digest⟩
  case boundary =>
    obtain ⟨t, hrun, ht, hin, -⟩ := run_init_absorbs hlen hi
    exact ⟨t, hrun, ht.phase, hin, ht.bitcnt, ht.carry, ht.acc⟩
  case digest =>
    obtain ⟨t1, hrun1, -, -, hlast1⟩ :=
      hashComputesTheMessageDigest s1 n w c1 [] hs1 h1 (hi1.trans (List.append_nil _).symm)
    obtain ⟨t2, hrun2, -, -, hlast2⟩ :=
      hashComputesTheMessageDigest s2 n w c2 [] hs2 h2 (hi2.trans (List.append_nil _).symm)
    exact ⟨t1, t2, _, _, _, hrun1, hrun2, hlast1, hmsg ▸ hlast2⟩

end Sys2Proof.Machine
end

section
/-! PROOFS. The diagnostic commands (44_diagnostic R240 to R245): each answers with a function of its operands and its payload,
or is rejected with ILLEGAL_COMMAND, and writes nothing else of the engine. -/

namespace Sys2Proof.Machine

/-! ## The operand words of a payload -/

theorem unpack_wordsAt {k : Nat} {s : List Byte} (h : s.length = 4 * k) : unpack (wordsAt k s).toList = s := by
  rw [← packWords_eq_wordsAt h, unpack_packWords s (by omega)]

theorem wordsAt_unpack {k : Nat} (V : Vector Word k) : wordsAt k (unpack V.toList) = V := by
  have hlen : (unpack V.toList).length = 4 * k := by rw [unpack_length, Vector.length_toList]
  rw [← Vector.toList_inj, ← packWords_eq_wordsAt hlen, packWords_unpack]

theorem unpack_toList_getElem? {k b : Nat} (V : Vector Word k) (hb : b / 4 < k) :
    (unpack V.toList)[b]? = some (V[b / 4].extractLsb' (8 * (b % 4)) 8) := by
  have hbyte := unpack_getElem? V.toList (b / 4) (b % 4) (V.length_toList.symm ▸ hb) (Nat.mod_lt b (by decide))
  rwa [Nat.div_add_mod, Vector.getElem_toList] at hbyte

/-! ## The response -/

/-- A DIAG_STEP is well formed exactly when PHI has a row for it (41_round_functions R127). -/
theorem passLegal_iff_exists_row {n : PassCount} {p : PassIndex} :
    passLegal n p = true ↔ ∃ row, passRow? n p = some row := by
  rw [← Option.ne_none_iff_exists', ne_eq, passRow?_eq_none_iff, Nat.not_lt]
  exact decide_eq_true_iff

theorem passRow?_self (row : PassRow) : passRow? row.passCount row.passIndex = some row :=
  passRow?_eq_some_iff.2 ⟨rfl, rfl⟩

/-- What a diagnostic command answers to a payload of its length (44_diagnostic R241 to R244); none where a DIAG_STEP is ill
formed, and for the commands that are no diagnostics. -/
def diagResponse (i : Instr) (payload : List Byte) : Option (List Byte) :=
  match i with
  | .init _ _ | .absorb _ | .finalize => none
  | .diagF k => some (unpack [roundFn k (wordsAt 7 payload)])
  | .diagStep n p j =>
    (passRow? n p).map fun row =>
      unpack (stepWords row j (wordsAt 32 (payload.drop 32)) (wordsAt 8 (payload.take 32))).toList
  | .diagCompress n => some (unpack (compress n (wordsAt 8 (payload.take 32)) (wordsAt 32 (payload.drop 32))).toList)
  | .diagFold w => some (unpack (fold w (wordsAt 8 payload)))

/-- Answer with a response, or reject with ILLEGAL_COMMAND where there is none. -/
def respond (response : Option (List Byte)) (s : State) : Result :=
  match response with
  | some bytes => succeed bytes s
  | none => reject .illegalCommand s

/-- A payload of the length checked packs into the operands, and the command answers with its response to it. -/
theorem exec_diagnostic_of_length {i : Instr} {s : State} (hi : isDiagnostic i = true)
    (hl : s.payload.length = payloadLength i) : exec i s = respond (diagResponse i s.payload) s := by
  cases i with
  | init passes width => cases hi
  | absorb len => cases hi
  | finalize => cases hi
  | diagF k => exact (requirePayload_of_length hl).trans (by rw [packVector_of_length hl]; rfl)
  | diagStep n p j =>
    rw [exec, execDiagStep, diagResponse]
    cases passRow? n p with
    | none => rfl
    | some row => exact (requirePayload_of_length hl).trans (by rw [blockOperands_of_length hl]; rfl)
  | diagCompress n => exact (requirePayload_of_length hl).trans (by rw [blockOperands_of_length hl]; rfl)
  | diagFold w => exact (requirePayload_of_length hl).trans (by rw [packVector_of_length hl]; rfl)

/-- The response to any payload: none where its length is wrong (60_exceptions R263 (c)). -/
def diagOutcome (i : Instr) (payload : List Byte) : Option (List Byte) :=
  if payload.length = payloadLength i then diagResponse i payload else none

theorem exec_diagnostic {i : Instr} (hi : isDiagnostic i = true) (s : State) :
    exec i s = respond (diagOutcome i s.payload) s := by
  unfold diagOutcome
  split
  · next hl => exact exec_diagnostic_of_length hi hl
  · next hl => exact exec_of_wrong_length hl

/-- A diagnostic command with a response gives it in every phase, and changes LAST_ERR only. -/
theorem exec_diagnostic_completes {i : Instr} {s : State} {response : List Byte} (hs : EngineInv s)
    (hi : isDiagnostic i = true) (hl : s.payload.length = payloadLength i)
    (hr : diagResponse i s.payload = some response) :
    CompletesWith (exec i s) { s with lastErr := .none } response := by
  rw [exec_diagnostic_of_length hi hl, hr]
  exact succeed_completes response hs.readable

theorem diagResponse_of_wellFormed {i : Instr} (hi : isDiagnostic i = true) (hwf : i.wellFormed = true)
    (payload : List Byte) : ∃ response, diagResponse i payload = some response := by
  cases i with
  | init passes width => cases hi
  | absorb len => cases hi
  | finalize => cases hi
  | diagStep n p j =>
    obtain ⟨row, hrow⟩ := passLegal_iff_exists_row.1 hwf
    exact ⟨_, by rw [diagResponse, hrow, Option.map_some]⟩
  | diagF k => exact ⟨_, rfl⟩
  | diagCompress n => exact ⟨_, rfl⟩
  | diagFold w => exact ⟨_, rfl⟩

/-- Settles O52: the command is `respond` of `diagOutcome`, which the command and the payload alone decide. -/
theorem diagnosticsLeaveTheComputation : Obligations.DiagnosticsLeaveTheComputation := by
  refine fun i hi => ⟨fun s hs hwf hl => ?succeeds, fun s t h => ?frame, fun s1 s2 t1 t2 hpay h1 h2 => ?congr⟩
  case succeeds =>
    obtain ⟨response, hr⟩ := diagResponse_of_wellFormed hi hwf s.payload
    obtain ⟨st, -, h⟩ := exec_diagnostic_completes hs hi hl hr
    exact ⟨_, h, rfl⟩
  case frame =>
    rw [exec_diagnostic hi] at h
    generalize diagOutcome i s.payload = response at h
    cases response with
    | none =>
      obtain ⟨st, -, rfl⟩ := reject_eq_next.1 h
      exact ⟨⟨st, _, rfl⟩, .inr ⟨rfl, rfl⟩⟩
    | some bytes =>
      obtain ⟨st, -, rfl⟩ := succeed_eq_next.1 h
      exact ⟨⟨st, _, rfl⟩, .inl ⟨rfl, rfl⟩⟩
  case congr =>
    rw [exec_diagnostic hi] at h1 h2
    rw [hpay] at h1
    generalize diagOutcome i s2.payload = response at h1 h2
    cases response with
    | none =>
      obtain ⟨st1, -, rfl⟩ := reject_eq_next.1 h1
      obtain ⟨st2, -, rfl⟩ := reject_eq_next.1 h2
      exact ⟨rfl, st1, st2, _, rfl, rfl⟩
    | some bytes =>
      obtain ⟨st1, -, rfl⟩ := succeed_eq_next.1 h1
      obtain ⟨st2, -, rfl⟩ := succeed_eq_next.1 h2
      exact ⟨rfl, st1, st2, _, rfl, rfl⟩

/-! ## Command by command -/

/-- A word that decodes to no command is rejected with ILLEGAL_COMMAND (60_exceptions R263). -/
theorem perform_rejects_undecoded {cmd : Word} {s : State} (payload : List Byte) (hs : EngineInv s)
    (h : ∀ i, decode cmd ≠ .ok i) : RejectedWith (perform ⟨cmd, payload⟩ s) s .illegalCommand := by
  cases hd : decode cmd with
  | ok i => exact absurd hd (h i)
  | error e =>
    rw [perform_of_error (x := ⟨cmd, payload⟩) hd]
    exact reject_rejects _ hs.readable

/-- Settles O47: a word with this OP decodes to a DIAG_F, whose encoding it is, or to nothing. -/
theorem diagFReturnsRoundFunction : Obligations.DiagFReturnsRoundFunction := by
  refine ⟨fun k => decodeOfEncode (.diagF k) rfl,
    fun cmd payload s hs hop hne => perform_rejects_undecoded payload hs fun i hd => ?_,
    fun k s hs hl => exec_diagnostic_completes hs rfl hl rfl⟩
  obtain ⟨k, rfl, -⟩ := decodeDiagF_eq_ok_iff.1 (decode_of_diagF hop ▸ hd)
  exact hne k (decode_eq_ok_iff_eq_encode.1 hd).2

/-- The bytes of the working words a step does not write are the payload's (44_diagnostic R242). -/
theorem unpack_stepWords_getElem? (row : PassRow) (i : Fin 32) (B : Vector Word 32) {s : List Byte} {b : Nat}
    (hs : 32 ≤ s.length) (hb : b < 32) (hne : b / 4 ≠ (7 + 8 - i.val % 8) % 8) :
    (unpack (stepWords row i B (wordsAt 8 (s.take 32))).toList)[b]? = s[b]? := by
  have hb4 : b / 4 < 8 := by omega
  have hword : (stepWords row i B (wordsAt 8 (s.take 32)))[b / 4] = (wordsAt 8 (s.take 32))[b / 4] := by
    have htarget : (⟨b / 4, hb4⟩ : Fin 8) ≠ stepTarget i := fun h => hne (stepTarget_val i ▸ congrArg Fin.val h)
    exact (stepWords_getElem row i B _ ⟨b / 4, hb4⟩).trans (if_neg htarget)
  have htake : (s.take 32).length = 4 * 8 := List.length_take_of_le hs
  rw [unpack_toList_getElem? _ hb4, hword, ← unpack_toList_getElem? _ hb4, unpack_wordsAt htake,
    List.getElem?_take_of_lt hb]

/-- Settles O48: the legal (n, p) are those with a row of PHI, and the step writes its target word only. -/
theorem diagStepReturnsOneStep : Obligations.DiagStepReturnsOneStep := by
  refine ⟨fun row i => decodeOfEncode (.diagStep _ _ i) (passLegal_iff_exists_row.2 ⟨row, passRow?_self row⟩),
    fun cmd payload s hs hop hne => perform_rejects_undecoded payload hs fun i hd => ?reject,
    fun row i s hs hl => ⟨?completes, fun b hb hother => unpack_stepWords_getElem? row i _ (by omega) hb hother⟩⟩
  case reject =>
    obtain ⟨n, p, j, rfl, hle, -⟩ := decodeDiagStep_eq_ok_iff.1 (decode_of_diagStep hop ▸ hd)
    obtain ⟨row, hrow⟩ := passLegal_iff_exists_row.1 hle
    obtain ⟨rfl, rfl⟩ := passRow?_eq_some_iff.1 hrow
    exact hne row j (decode_eq_ok_iff_eq_encode.1 hd).2
  case completes =>
    exact exec_diagnostic_completes hs rfl hl (by rw [diagResponse, passRow?_self, Option.map_some])

theorem addWords_getElem (a t : Vector Word 8) (j : Fin 8) : (addWords a t)[j] = a[j] + t[j] := by
  have hwords : addWords a t = Vector.ofFn fun j : Fin 8 => a[j] + t[j] := rfl
  rw [hwords]
  exact Vector.getElem_ofFn _

/-- Settles O50: COMPRESS adds the working words after the passes to the accumulator, word by word. -/
theorem diagCompressReturnsCompression : Obligations.DiagCompressReturnsCompression := by
  refine ⟨fun n => decodeOfEncode (.diagCompress n) rfl,
    fun cmd payload s hs hop hne => perform_rejects_undecoded payload hs fun i hd => ?_,
    fun n s hs hl => ⟨exec_diagnostic_completes hs rfl hl rfl, fun j => addWords_getElem _ _ j⟩⟩
  obtain ⟨n, rfl, -⟩ := decodeDiagCompress_eq_ok_iff.1 (decode_of_diagCompress hop ▸ hd)
  exact hne n (decode_eq_ok_iff_eq_encode.1 hd).2

/-- Settles O51: the response has a digest's bytes, and so its length (O35). -/
theorem diagFoldReturnsFold : Obligations.DiagFoldReturnsFold := by
  refine ⟨fun w => decodeOfEncode (.diagFold w) rfl,
    fun cmd payload s hs hop hne => perform_rejects_undecoded payload hs fun i hd => ?_,
    fun w s hs hl => ⟨exec_diagnostic_completes hs rfl hl rfl, (digestBytes_length_and_order w _).1⟩⟩
  obtain ⟨w, rfl, -⟩ := decodeDiagFold_eq_ok_iff.1 (decode_of_diagFold hop ▸ hd)
  exact hne w (decode_eq_ok_iff_eq_encode.1 hd).2

/-! ## The hash path -/

theorem compressWhole_of_block {n : PassCount} {a : Vector Word 8} {block : List Byte} (h : block.length = 128) :
    compressWhole n a block = compress n a (wordsAt 32 block) := by
  rw [compressWhole, h]
  rfl

theorem remainder_of_block {block : List Byte} (h : block.length = 128) : remainder block = [] := by
  rw [remainder, h]
  exact List.drop_eq_nil_of_le h.le

/-- DIAG_FOLD of the words V, unpacked as its payload. -/
theorem exec_diagFold_unpack {s : State} (w : Width) (V : Vector Word 8) (hs : EngineInv s)
    (hp : s.payload = unpack V.toList) :
    CompletesWith (exec (.diagFold w) s) { s with lastErr := .none } (digestBytes w V) := by
  refine exec_diagnostic_completes hs rfl ?_ ?_
  · rw [hp, unpack_length, Vector.length_toList]; rfl
  · rw [diagResponse, hp, wordsAt_unpack]; rfl

/-- DIAG_COMPRESS of an accumulator, unpacked, and the bytes of a block after it. -/
theorem exec_diagCompress_unpack {s : State} (n : PassCount) (a : Vector Word 8) {block : List Byte} (hs : EngineInv s)
    (hb : block.length = 128) (hp : s.payload = unpack a.toList ++ block) :
    CompletesWith (exec (.diagCompress n) s) { s with lastErr := .none }
      (unpack (compress n a (wordsAt 32 block)).toList) := by
  have ha : (unpack a.toList).length = 32 := by rw [unpack_length, Vector.length_toList]
  refine exec_diagnostic_completes hs rfl ?_ ?_
  · rw [hp, List.length_append, ha, hb]; rfl
  · rw [diagResponse, hp, List.take_left' ha, List.drop_left' ha, wordsAt_unpack]

/-- Settles O53: FINALIZE folds the accumulator that DIAG_FOLD is given, and the whole blocks of one block are the block that
DIAG_COMPRESS is given. -/
theorem diagnosticsAgreeWithTheHashPath : Obligations.DiagnosticsAgreeWithTheHashPath := by
  constructor
  · rintro s s2 n w a _ c carry hs hp hn hw ha hc hcarry hnil rfl hs2 hp2
    obtain ⟨st, -, hfinalize⟩ := exec_finalize_completes hp hn hw ha hc hcarry hs.t_eq_none hnil
    obtain ⟨st2, -, hfold⟩ := exec_diagFold_unpack w _ hs2 hp2
    exact ⟨_, st, _, st2, _, hfinalize, rfl, hfold, rfl⟩
  · intro s s2 n a carry len hs hp hn ha hcarry hl hblock hs2 hp2
    obtain ⟨-, w, -, c, -, -, hw, -, hc, -⟩ := hs.active hp
    obtain ⟨st, -, habsorb⟩ := exec_absorb_completes hp hn hw ha hc hcarry hs.t_eq_none hl
    obtain ⟨st2, -, hcompress⟩ := exec_diagCompress_unpack n a hs2 hblock hp2
    exact ⟨_, _, _, st2, habsorb, congrArg some (compressWhole_of_block hblock),
      congrArg some (remainder_of_block hblock), hcompress, rfl⟩

end Sys2Proof.Machine
end

section
/-! PROOFS. Rejection (60_exceptions R262, R264, R267): a transaction succeeds, or it is rejected and writes STATUS only; and
STATE_MISUSE is the answer to ABSORB and FINALIZE outside ACTIVE. -/

namespace Sys2Proof.Machine

/-! ## A transaction succeeds or is rejected -/

/-- The answer drops the payload in flight, so a rejection does not depend on it. -/
theorem reject_of_payload (e : ErrCode) (s : State) (payload : List Byte) :
    reject e { s with payload := payload } = reject e s := rfl

/-- A transaction that gives a next state is rejected with one code, or has succeeded (60_exceptions R262, R267). -/
theorem perform_eq_next {x : Transaction} {s t : State} (h : perform x s = .next t) :
    (∃ e, e ≠ .none ∧ reject e s = .next t) ∨
    (t.errSticky = s.errSticky ∧ ∃ s' response, succeed response s' = .next t) := by
  obtain ⟨i, -, hx⟩ | ⟨_, -, hx⟩ := perform_cases x s
  · rw [hx] at h
    obtain ⟨e, hc, hr⟩ | ⟨hl, s', response, he, hr⟩ := exec_eq_next h
    · obtain ⟨hne, -⟩ := hc.code
      exact .inl ⟨e, hne, reject_of_payload e s x.payload ▸ hr⟩
    · obtain ⟨st, -, ht⟩ := succeed_eq_next.1 hr
      have hsucceeded : Succeeded i { s with payload := x.payload } t := ⟨s', st, response, hl, he, ht⟩
      exact .inr ⟨hsucceeded.errSticky, s', response, hr⟩
  · exact .inl ⟨.illegalCommand, nofun, hx ▸ h⟩

/-- Settles O22: LAST_ERR tells that the transaction did not succeed, and `reject` writes STATUS only. -/
theorem rejectionChangesStatusOnly : Obligations.RejectionChangesStatusOnly := by
  intro x s t h he
  obtain ⟨e, -, hr⟩ | ⟨-, s', response, hr⟩ := perform_eq_next h
  · obtain ⟨st, hst, rfl⟩ := reject_eq_next.1 hr
    exact ⟨st, hst, rfl⟩
  · obtain ⟨st, -, rfl⟩ := succeed_eq_next.1 hr
    exact absurd rfl he

/-- Settles O23: where the invariant holds a transaction gives a next state, which is one of the two. -/
theorem commandsSucceedOrAreRejected : Obligations.CommandsSucceedOrAreRejected := by
  intro x s hs
  obtain ⟨t, h⟩ := perform_exists_next x hs
  obtain ⟨e, hne, hr⟩ | ⟨hsticky, s', response, hr⟩ := perform_eq_next h
  · obtain ⟨st, hst, rfl⟩ := reject_eq_next.1 hr
    exact .inr ⟨e, hne, st, hst, h⟩
  · obtain ⟨st, hst, rfl⟩ := succeed_eq_next.1 hr
    exact .inl ⟨{ s' with lastErr := .none }, response, rfl, hsticky, st, hst, h⟩

/-! ## STATE_MISUSE -/

/-- Of the causes of a rejection only the phase check's has the code STATE_MISUSE. -/
theorem exec_stateMisuse {i : Instr} {s t : State} (h : exec i s = .next t) (he : t.lastErr = .stateMisuse) :
    s.phase ≠ .active ∧ (i = .finalize ∨ ∃ len, i = .absorb len) := by
  obtain ⟨e, hc, hr⟩ | ⟨-, s', response, -, hr⟩ := exec_eq_next h
  · obtain ⟨st, -, rfl⟩ := reject_eq_next.1 hr
    obtain rfl : e = .stateMisuse := he
    obtain hc | ⟨-, hcause⟩ | ⟨hc, -⟩ := hc
    · exact absurd hc nofun
    · exact hcause
    · exact absurd hc nofun
  · obtain ⟨st, -, rfl⟩ := succeed_eq_next.1 hr
    exact absurd he nofun

/-- A clean engine is one just reset, whatever stands on the link. -/
theorem clean_stateInv (requests : List Request) : StateInv (clean requests) := resetEngine_stateInv (clean requests)

/-- An ABSORB after the FINALIZE of a computation is misuse, and leaves it FINALIZED (60_exceptions R264). -/
theorem HoldsMessage.run_finalize_absorb {n : PassCount} {w : Width} {msg c : List Byte} {s : State} {rest : List Request}
    (h : HoldsMessage n w msg s) (hs : StateInv s) (hlen : c.length ≤ maxAbsorb)
    (hi : s.inbox = finalizeRequest :: absorbRequest c :: rest) :
    ∃ t, Host.Core.run core 2 s = .next t ∧ t.lastErr = .stateMisuse ∧ t.phase = .finalized := by
  have hfits : c.length = (BitVec.ofNat 24 c.length).toNat :=
    ((eq_ofNat_iff_toNat_eq (Nat.lt_succ_of_le hlen)).1 rfl).symm
  obtain ⟨s1, hstep, hphase, hin, -⟩ := h.step_finalize hi
  obtain ⟨hs1, -⟩ := stepKeepsInvariant s s1 hs hstep
  obtain ⟨st, -, habsorb⟩ :=
    exec_absorb_rejects (s := { s1 with inbox := rest, payload := c }) (hs1.of_link rest c s1.answers)
      (hphase ▸ nofun) hfits
  exact ⟨_, run_succ core hstep (run_succ core ((step_of_request rfl hin).trans habsorb) rfl), rfl, hphase⟩

/-- Settles O25: the phase check raises STATE_MISUSE, nothing else does, and an accepted FINALIZE leaves ACTIVE. -/
theorem misuseRejected : Obligations.MisuseRejected := by
  refine ⟨fun s hs hp => ⟨fun len hl => exec_absorb_rejects hs hp hl, fun hnil => exec_finalize_rejects hs hp hnil⟩,
    fun i s t h he => exec_stateMisuse h he, ?ruleExample⟩
  case ruleExample =>
    obtain ⟨s, hstep, hmsg, hin, -⟩ := step_init (s := clean _) .three .w128 rfl
    have hs : StateInv s := stepKeepsInvariant _ s (clean_stateInv _) hstep
    obtain ⟨t, hrun, herr, hphase⟩ := hmsg.run_finalize_absorb (c := [0x61#8]) hs (by decide) hin
    exact ⟨t, run_succ core hstep hrun, herr, hphase⟩

end Sys2Proof.Machine
end

section
/-! PROOFS. What the host may see (60_exceptions R277, R278): a step commutes with forgetting ACC, BITCNT, CARRY, BLK and T,
but for an accepted FINALIZE. The cases follow the checks of a command: its payload, its phase, the command proper. -/

namespace Sys2Proof.Machine

/-! ## Outcomes as the host may see them -/

/-- The outcome with the elements forgotten that no command but FINALIZE shows. -/
def shown (r : Result) : Result := andThen r fun s => .next (visible s)

theorem statusOf_visible (s : State) : statusOf (visible s) = statusOf s := statusOf_congr rfl rfl rfl rfl rfl

theorem shown_reply (response : List Byte) (s : State) : shown (reply response s) = reply response (visible s) := by
  rw [reply, reply, statusOf_visible]
  cases statusOf s <;> rfl

theorem shown_reject (e : ErrCode) (s : State) : shown (reject e s) = reject e (visible s) := shown_reply ..

theorem shown_succeed (response : List Byte) (s : State) : shown (succeed response s) = succeed response (visible s) :=
  shown_reply ..

theorem shown_answerStatus (s : State) : shown (answerStatus s) = answerStatus (visible s) := by
  rw [answerStatus, answerStatus, statusOf_visible]
  cases statusOf s <;> rfl

theorem shown_of_completes {r : Result} {s : State} {response : List Byte} (h : CompletesWith r s response) :
    shown r = reply response (visible s) := by
  obtain ⟨st, hst, rfl⟩ := h
  rw [← shown_reply, reply_eq_next.2 ⟨st, hst, rfl⟩]

/-! ## The commands, with a payload of their length -/

theorem shown_exec_init {passes : BitVec 8} {width : BitVec 16} {s : State} (hp : s.payload.length = 0) :
    shown (exec (.init passes width) s) = shown (exec (.init passes width) (visible s)) := by
  rw [exec, exec, execInit, execInit, requirePayload_of_length hp, requirePayload_of_length (s := visible s) hp]
  split
  · rw [shown_succeed, shown_succeed]; rfl
  · rw [shown_reject, shown_reject]; rfl

/-- An ABSORB shows that it is accepted or not, and nothing of the bytes absorbed before. -/
theorem shown_exec_absorb {len : BitVec 24} {s : State} (hs : EngineInv s) (hl : s.payload.length = len.toNat) :
    shown (exec (.absorb len) s) = requireActive (visible s) (succeed [] (visible s)) := by
  by_cases hp : s.phase = .active
  · obtain ⟨n, w, a, c, carry, hn, hw, ha, hc, hcarry, -⟩ := hs.active hp
    rw [requireActive_of_active (s := visible s) hp]
    exact shown_of_completes (exec_absorb_completes hp hn hw ha hc hcarry hs.t_eq_none hl)
  · rw [requireActive_of_ne (s := visible s) hp]
    exact shown_of_completes (exec_absorb_rejects hs hp hl)

theorem shown_exec_finalize {s : State} (hs : EngineInv s) (hp : s.phase ≠ .active) (hnil : s.payload = []) :
    shown (exec .finalize s) = reject .stateMisuse (visible s) :=
  shown_of_completes (exec_finalize_rejects hs hp hnil)

theorem shown_exec_diagnostic {i : Instr} (hi : isDiagnostic i = true) (s : State) :
    shown (exec i s) = exec i (visible s) := by
  rw [exec_diagnostic hi, exec_diagnostic hi, visible_payload]
  cases diagOutcome i s.payload with
  | none => exact shown_reject ..
  | some bytes => exact shown_succeed ..

/-! ## Noninterference: equal to the host before, equal to the host after -/

theorem shown_exec_congr {i : Instr} {s1 s2 : State} (h1 : EngineInv s1) (h2 : EngineInv s2)
    (hv : visible s1 = visible s2) (hf : ¬ (i = .finalize ∧ s1.phase = .active ∧ s1.payload = [])) :
    shown (exec i s1) = shown (exec i s2) := by
  have hpay : s1.payload = s2.payload := (congrArg State.payload hv :)
  have hphase : s1.phase = s2.phase := (congrArg State.phase hv :)
  by_cases hl : s1.payload.length = payloadLength i
  case neg => rw [exec_of_wrong_length hl, exec_of_wrong_length (hpay ▸ hl), shown_reject, shown_reject, hv]
  case pos =>
    cases i with
    | init passes width => rw [shown_exec_init hl, hv, ← shown_exec_init (hpay ▸ hl)]
    | absorb len => rw [shown_exec_absorb h1 hl, shown_exec_absorb h2 (hpay ▸ hl), hv]
    | finalize =>
      have hnil : s1.payload = [] := List.length_eq_zero_iff.1 hl
      have hp : s1.phase ≠ .active := fun hp => hf ⟨rfl, hp, hnil⟩
      rw [shown_exec_finalize h1 hp hnil, shown_exec_finalize h2 (hphase ▸ hp) (hpay ▸ hnil), hv]
    | diagF | diagStep | diagCompress | diagFold => rw [shown_exec_diagnostic rfl, shown_exec_diagnostic rfl, hv]

/-- The one transaction whose word is FINALIZE's, with no payload, is `finalizeRequest`. -/
theorem eq_finalizeRequest {x : Transaction} (hd : decode x.cmd = .ok .finalize) (hnil : x.payload = []) :
    .transaction x = finalizeRequest := by
  obtain ⟨-, hcmd⟩ := decode_eq_ok_iff_eq_encode.1 hd
  rw [finalizeRequest, request, ← hcmd, ← hnil]

theorem shown_perform_congr {x : Transaction} {s1 s2 : State} (h1 : EngineInv s1) (h2 : EngineInv s2)
    (hv : visible s1 = visible s2) (hf : ¬ (s1.phase = .active ∧ .transaction x = finalizeRequest)) :
    shown (perform x s1) = shown (perform x s2) := by
  cases hd : decode x.cmd with
  | ok i =>
    rw [perform_of_ok hd, perform_of_ok hd]
    refine shown_exec_congr (h1.of_link s1.inbox x.payload s1.answers) (h2.of_link s2.inbox x.payload s2.answers)
      (congrArg (fun v : State => { v with payload := x.payload }) hv) ?_
    rintro ⟨rfl, hp, hnil⟩
    exact hf ⟨hp, eq_finalizeRequest hd hnil⟩
  | error e => rw [perform_of_error hd, perform_of_error hd, shown_reject, shown_reject, hv]

theorem shown_serve_congr {r : Request} {s1 s2 : State} (h1 : EngineInv s1) (h2 : EngineInv s2)
    (hv : visible s1 = visible s2) (hf : ¬ (s1.phase = .active ∧ r = finalizeRequest)) :
    shown (serve r s1) = shown (serve r s2) := by
  cases r with
  | transaction x => exact shown_perform_congr h1 h2 hv hf
  | readStatus => rw [serve, serve, shown_answerStatus, shown_answerStatus, hv]
  | reset abandoned =>
    have hreset : resetEngine (visible s1) = resetEngine (visible s2) := by rw [hv]
    exact congrArg Host.Outcome.next hreset

theorem shown_step_congr {s1 s2 : State} (h1 : EngineInv s1) (h2 : EngineInv s2) (hv : visible s1 = visible s2)
    (hf : ¬ (s1.phase = .active ∧ s1.inbox.head? = some finalizeRequest)) : shown (step s1) = shown (step s2) := by
  have hin : s2.inbox = s1.inbox := (congrArg State.inbox hv.symm :)
  rw [step, step, serveNext, serveNext, hin]
  cases hr : s1.inbox with
  | nil => exact congrArg Host.Outcome.next hv
  | cons r rest =>
    refine shown_serve_congr (h1.of_link rest s1.payload s1.answers) (h2.of_link rest s2.payload s2.answers)
      (congrArg (fun v : State => { v with inbox := rest }) hv) ?_
    rintro ⟨hp, rfl⟩
    exact hf ⟨hp, by rw [hr]; rfl⟩

/-- Settles O56: with the five elements forgotten the two outcomes are one, and `Rejected` answers with no bytes. -/
theorem noPartialDigest : Obligations.NoPartialDigest := by
  refine ⟨fun s1 s2 t1 t2 ⟨hs1, _⟩ ⟨hs2, _⟩ hv hf ht1 ht2 => ?same, fun s t h he => ?empty⟩
  case same =>
    have hshown : shown (step s1) = shown (step s2) := shown_step_congr hs1 hs2 hv hf
    rw [ht1, ht2] at hshown
    exact Host.Outcome.next.inj hshown
  case empty =>
    obtain ⟨_, st, -, -, rfl⟩ := exec_rejected h he
    exact ⟨st, rfl⟩

end Sys2Proof.Machine
end

section
/-! PROOFS. Reset and idling (70_reset_and_hazards R290 to R300): the reset state meets the invariant, so every command goes on
there; and the LAST_ERR field of each answer is the state's own, so an answer with response bytes is no rejection. -/

namespace Sys2Proof.Machine

/-! ## One answer to a transaction -/

theorem statusOf_lastErr {s : State} {st : Word} (h : statusOf s = .ok st) : st.extractLsb' 4 3 = errCode s.lastErr := by
  obtain ⟨hlayout, -⟩ := statusRegisterLayout
  obtain ⟨-, -, -, herr, -⟩ := hlayout s st h
  exact herr

/-- A rejection answers with no bytes, and the STATUS of a success has no error in its LAST_ERR field. -/
theorem perform_answer_exclusive {x : Transaction} {s t : State} (h : perform x s = .next t) :
    ∃ answer, AnswerExclusive answer ∧ t.answers = s.answers ++ [answer] := by
  obtain ⟨-, answer, hans⟩ := perform_link h
  refine ⟨answer, ?_, hans⟩
  obtain ⟨e, -, hr⟩ | ⟨-, s', response, hr⟩ := perform_eq_next h
  · obtain ⟨st, -, rfl⟩ := reject_eq_next.1 hr
    obtain rfl := List.singleton_inj.1 (List.append_inj_right' hans rfl)
    exact fun _ => rfl
  · obtain ⟨st, hst, rfl⟩ := succeed_eq_next.1 hr
    obtain rfl := List.singleton_inj.1 (List.append_inj_right' hans rfl)
    exact fun hne => absurd (statusOf_lastErr hst) hne

/-- Settles O15, over what a step can be: only a transaction's answer has response bytes, and it is exclusive. -/
theorem answersAreExclusive : Obligations.AnswersAreExclusive := by
  intro s t h hs
  obtain ⟨-, rfl⟩ | ⟨x, rest, -, h⟩ | ⟨rest, st, -, -, rfl⟩ | ⟨_, rest, -, rfl⟩ := step_cases h
  · exact hs
  · obtain ⟨answer, hanswer, hans⟩ := perform_answer_exclusive h
    rw [hans]
    exact List.forall_mem_append.2 ⟨hs, List.forall_mem_singleton.2 hanswer⟩
  · exact List.forall_mem_append.2 ⟨hs, List.forall_mem_singleton.2 trivial⟩
  · exact hs

/-! ## The reset state -/

/-- Settles O2: the reset state is the clean engine with no request. -/
theorem resetMeetsInvariant : Obligations.ResetMeetsInvariant := clean_stateInv []

/-- Settles O1: the elements are read off the reset state, and a command goes on wherever the invariant holds, whatever its
payload. -/
theorem resetHoldsNoValues : Obligations.ResetHoldsNoValues := by
  obtain ⟨hinv, -⟩ := resetMeetsInvariant
  refine ⟨rfl, rfl, rfl, rfl, rfl, rfl, rfl, rfl, rfl, rfl, ?status, fun i payload => ?command⟩
  case status => exact statusOf_unconfigured rfl
  case command => exact exec_exists_next i (hinv.of_link [] payload [])

/-! ## Steps from and to the reset state -/

/-- Settles O7: with an empty inbox there is nothing to serve. -/
theorem idleEngineHoldsState : Obligations.IdleEngineHoldsState := by
  intro s hi
  rw [step, serveNext, hi]

/-- Settles O8: `resetEngine` keeps the link only, and the transaction a reset abandons is not looked at. -/
theorem resetRequestResetsEngine : Obligations.ResetRequestResetsEngine := fun _ _ _ hi => step_of_reset hi

/-- Settles O9: INIT's request with legal values is accepted, and on a clean engine it writes what Configured names. -/
theorem configuredIsCleanAfterInit : Obligations.ConfiguredIsCleanAfterInit := by
  intro n w rest
  obtain ⟨st, -, hexec⟩ := exec_init_completes n w (s := clean rest) rfl
  exact ⟨st, (step_of_request rfl rfl).trans hexec⟩

end Sys2Proof.Machine
end
